-- ==== Sys2Proof/Word.lean ====
section
/-! DEFINITION. The bit-vector types of the pyLegV8 core and the two small operand types an instruction carries
(a branch target, a condition code). The arithmetic on them is in Machine/Operands.lean. -/

namespace Sys2Proof

/-- A byte of data memory (10_state R49). -/
abbrev Byte := BitVec 8

/-- A 64-bit register value or program counter, read as a signed integer with `toInt` (00_scope R7, 10_state R31, R37). -/
abbrev Word := BitVec 64

/-- A 32-bit instruction word (30_encoding R120). -/
abbrev InstrWord := BitVec 32

/-- A register index 0 to 31, as the 5-bit fields of a word hold it (30_encoding R134). A type of exactly 32 values:
`InvalidRegister` cannot arise (60_exceptions R302; notes/assumptions/12). -/
abbrev RegIdx := BitVec 5

/-- A 12-bit immediate or offset; its value is the signed integer `toInt`, in [-2048, 2047] (30_encoding R132). -/
abbrev Imm := BitVec 12

/-- A label of the assembler, as the characters of its identifier (30_encoding R142). -/
abbrev Label := List Char

/-- A branch target (30_encoding R111, R112): after pass 2 an instruction index of `w` bits, before it a symbol. The word
formats hold 24 bits (B, BL) or 19 bits (CBZ, CBNZ, B.cond) (30_encoding R133). -/
inductive Target (w : Nat) where
  | resolved (tidx : BitVec w)
  | unresolved (label : Label)
  deriving DecidableEq, Repr

/-- The ten condition codes (30_encoding R130, 43_branch R249). -/
inductive Cond where
  | eq | ne | lt | le | gt | ge | lo | ls | hi | hs
  deriving DecidableEq, Repr

end Sys2Proof
end

