-- ==== Sys2Proof/Config.lean ====
section
/-! DEFINITION. What an implementation fixes, the bounds the spec sets, and the free values: constants with no body, of which
nothing can be proved. -/

namespace Sys2Proof.Config

/-- The default capacity of the data memory in bytes, 1 MiB (00_scope R9). -/
def defaultMemCap : Nat := 1048576

/-- The capacities that are a configuration of this core: a multiple of 8 from 8 to 2^62 (00_scope R9, D15). -/
def legalMemCap (cap : Nat) : Bool := 8 ≤ cap && cap ≤ 2 ^ 62 && cap % 8 == 0

/-- `MAX_PROG`, the most instructions a program may have (00_scope R11). -/
def maxProg : Nat := 2 ^ 19 - 1

/-- FREE VALUE, one per draw: does `instr_count` count the faulting step (60_exceptions R314; notes/assumptions/3)? -/
opaque faultCountsInstr : Nat → Bool

/-- FREE VALUE, one per draw, independent of the one before: does `cycle_count` count the faulting step
(60_exceptions R314; notes/assumptions/3)? -/
opaque faultCountsCycle : Nat → Bool

/-- FREE VALUE, one per draw: does `last_instr` become the faulting instruction (10_state R46, U6; notes/assumptions/4)? -/
opaque faultRecordsInstr : Nat → Bool

/-- FREE VALUE: does pass 2 of the assembler still run, and add its errors, after a pass 1 with errors
(95_test_vectors V-A; notes/assumptions/16)? -/
opaque pass2AfterFailedPass1 : Bool

end Sys2Proof.Config
end

