-- ==== Sys2Proof/Syntax.lean ====
section
/-! DEFINITION. The instruction set: one constructor per row of spec/opcode_table.json, with the operand fields of the
abstract instruction (30_encoding R111). MOVZ and MOVK carry no `rn`: the word format fixes it to 31 and execution
ignores it (30_encoding R123, R146). The source line number is not part of an instruction (00_scope R4); the assembler keeps
it beside the instruction. -/

namespace Sys2Proof

/-- The 40 instructions (30_encoding R111, R129). DESIGN CHOICE: the mnemonic is the constructor, so an R, I, D or CB record
whose `op` is outside its variant's list (30_encoding R135, 60_exceptions R305) has no form here; what it raises,
`UnsupportedInstruction`, is modelled at the binary level alone, for illegal words, as 00_scope R6 lets a model choose its
level (notes/assumptions/24). -/
inductive Instr where
  | add (rd rn rm : RegIdx)
  | sub (rd rn rm : RegIdx)
  | adds (rd rn rm : RegIdx)
  | subs (rd rn rm : RegIdx)
  | and (rd rn rm : RegIdx)
  | orr (rd rn rm : RegIdx)
  | eor (rd rn rm : RegIdx)
  | mul (rd rn rm : RegIdx)
  | lsl (rd rn rm : RegIdx)
  | lsr (rd rn rm : RegIdx)
  | addi (rd rn : RegIdx) (imm : Imm)
  | subi (rd rn : RegIdx) (imm : Imm)
  | addis (rd rn : RegIdx) (imm : Imm)
  | subis (rd rn : RegIdx) (imm : Imm)
  | andi (rd rn : RegIdx) (imm : Imm)
  | orri (rd rn : RegIdx) (imm : Imm)
  | eori (rd rn : RegIdx) (imm : Imm)
  | movz (rd : RegIdx) (imm : Imm)
  | movk (rd : RegIdx) (imm : Imm)
  | ldur (rt rn : RegIdx) (imm : Imm)
  | stur (rt rn : RegIdx) (imm : Imm)
  | ldurw (rt rn : RegIdx) (imm : Imm)
  | sturw (rt rn : RegIdx) (imm : Imm)
  | ldurb (rt rn : RegIdx) (imm : Imm)
  | sturb (rt rn : RegIdx) (imm : Imm)
  | b (target : Target 24)
  | bl (target : Target 24)
  | br (rn : RegIdx)
  | cbz (rt : RegIdx) (target : Target 19)
  | cbnz (rt : RegIdx) (target : Target 19)
  | bEq (target : Target 19)
  | bNe (target : Target 19)
  | bLt (target : Target 19)
  | bLe (target : Target 19)
  | bGt (target : Target 19)
  | bGe (target : Target 19)
  | bLo (target : Target 19)
  | bLs (target : Target 19)
  | bHi (target : Target 19)
  | bHs (target : Target 19)
  deriving DecidableEq, Repr

end Sys2Proof
end

