-- ==== Sys2Proof/WellFormed.lean ====
section
/-! DEFINITION. Well-formed instructions: those the program store can hold. The bit widths of the fields are in their types;
what is left to check is that every branch is resolved (30_encoding R112). -/

namespace Sys2Proof

/-- Pass 2 of the assembler gave the branch its numeric target (30_encoding R112, R152). -/
def Target.isResolved {w : Nat} : Target w → Bool
  | .resolved _ => true
  | .unresolved _ => false

/-- A resolved abstract instruction, the kind a word can express (30_encoding R112, R139). -/
def Instr.wellFormed : Instr → Bool
  | .add _ _ _ => true
  | .sub _ _ _ => true
  | .adds _ _ _ => true
  | .subs _ _ _ => true
  | .and _ _ _ => true
  | .orr _ _ _ => true
  | .eor _ _ _ => true
  | .mul _ _ _ => true
  | .lsl _ _ _ => true
  | .lsr _ _ _ => true
  | .addi _ _ _ => true
  | .subi _ _ _ => true
  | .addis _ _ _ => true
  | .subis _ _ _ => true
  | .andi _ _ _ => true
  | .orri _ _ _ => true
  | .eori _ _ _ => true
  | .ldur _ _ _ => true
  | .stur _ _ _ => true
  | .ldurw _ _ _ => true
  | .sturw _ _ _ => true
  | .ldurb _ _ _ => true
  | .sturb _ _ _ => true
  | .movz _ _ => true
  | .movk _ _ => true
  | .b t => t.isResolved
  | .bl t => t.isResolved
  | .br _ => true
  | .cbz _ t => t.isResolved
  | .cbnz _ t => t.isResolved
  | .bEq t => t.isResolved
  | .bNe t => t.isResolved
  | .bLt t => t.isResolved
  | .bLe t => t.isResolved
  | .bGt t => t.isResolved
  | .bGe t => t.isResolved
  | .bLo t => t.isResolved
  | .bLs t => t.isResolved
  | .bHi t => t.isResolved
  | .bHs t => t.isResolved

end Sys2Proof
end

