-- ==== Sys2Proof/Decode.lean ====
section
/-! DEFINITION. The decoder, a total function from 32-bit words (30_encoding R131), then the encoder (R139), and both over the
bytes of a stored word (R161). -/

namespace Sys2Proof

/-- What the decoder answers (30_encoding R131): an instruction; a CondB whose condition is none of the ten, which decodes and
faults when executed (R136); or, rejected by name, an illegal word (R135). -/
inductive Decoded where
  | instr (i : Instr)
  | reservedCondition (cond : BitVec 4) (tidx : BitVec 19)
  | illegal (w : InstrWord)
  deriving DecidableEq, Repr

/-- The condition numbers (30_encoding R130); 10 to 15 name no condition. -/
def condOfBits (c : BitVec 4) : Option Cond :=
  if c = 0 then some .eq
  else if c = 1 then some .ne
  else if c = 2 then some .lt
  else if c = 3 then some .le
  else if c = 4 then some .gt
  else if c = 5 then some .ge
  else if c = 6 then some .lo
  else if c = 7 then some .ls
  else if c = 8 then some .hi
  else if c = 9 then some .hs
  else none

/-- The number of a condition (30_encoding R130). -/
def Cond.bits : Cond → BitVec 4
  | .eq => 0
  | .ne => 1
  | .lt => 2
  | .le => 3
  | .gt => 4
  | .ge => 5
  | .lo => 6
  | .ls => 7
  | .hi => 8
  | .hs => 9

/-- The B.cond instruction of a condition. -/
def Instr.bCond (t : Target 19) : Cond → Instr
  | .eq => .bEq t
  | .ne => .bNe t
  | .lt => .bLt t
  | .le => .bLe t
  | .gt => .bGt t
  | .ge => .bGe t
  | .lo => .bLo t
  | .ls => .bLs t
  | .hi => .bHi t
  | .hs => .bHs t

/-- R-format (30_encoding R121): opcode, 000, `rm`, 000000, `rn`, `rd`. -/
def decodeR (w : InstrWord) (f : RegIdx → RegIdx → RegIdx → Instr) : Decoded :=
  if w.extractLsb' 21 3 = 0 ∧ w.extractLsb' 10 6 = 0 then
    .instr (f (w.extractLsb' 0 5) (w.extractLsb' 5 5) (w.extractLsb' 16 5))
  else .illegal w

/-- I-format and D-format (30_encoding R122, R124): opcode, 00, `imm12`, `rn`, `rd` or `rt`. -/
def decodeI (w : InstrWord) (f : RegIdx → RegIdx → Imm → Instr) : Decoded :=
  if w.extractLsb' 22 2 = 0 then
    .instr (f (w.extractLsb' 0 5) (w.extractLsb' 5 5) (w.extractLsb' 10 12))
  else .illegal w

/-- IM-format (30_encoding R123): the I-format with `rn` fixed to 11111. -/
def decodeIM (w : InstrWord) (f : RegIdx → Imm → Instr) : Decoded :=
  if w.extractLsb' 22 2 = 0 ∧ w.extractLsb' 5 5 = 31#5 then
    .instr (f (w.extractLsb' 0 5) (w.extractLsb' 10 12))
  else .illegal w

/-- B-format (30_encoding R125): opcode, `tidx24`. -/
def decodeB (w : InstrWord) (f : Target 24 → Instr) : Decoded :=
  .instr (f (.resolved (w.extractLsb' 0 24)))

/-- BR-format (30_encoding R126): opcode, fourteen zeros, `rn`, 00000. -/
def decodeBR (w : InstrWord) : Decoded :=
  if w.extractLsb' 10 14 = 0 ∧ w.extractLsb' 0 5 = 0 then .instr (.br (w.extractLsb' 5 5)) else .illegal w

/-- CB-format (30_encoding R127): opcode, `tidx19`, `rt`. -/
def decodeCB (w : InstrWord) (f : RegIdx → Target 19 → Instr) : Decoded :=
  .instr (f (w.extractLsb' 0 5) (.resolved (w.extractLsb' 5 19)))

/-- CC-format (30_encoding R128): opcode, `tidx19`, 0, `cond`. -/
def decodeCC (w : InstrWord) : Decoded :=
  if w.extractLsb' 4 1 = 0 then
    match condOfBits (w.extractLsb' 0 4) with
    | some c => .instr (.bCond (.resolved (w.extractLsb' 5 19)) c)
    | none => .reservedCondition (w.extractLsb' 0 4) (w.extractLsb' 5 19)
  else .illegal w

/-- Decode the word `w`, whose opcode is `op`, by the opcode map (30_encoding R129, R131). -/
def decodeOp (op : BitVec 8) (w : InstrWord) : Decoded :=
  if op = 0x01 then decodeR w .add
  else if op = 0x02 then decodeR w .sub
  else if op = 0x03 then decodeR w .adds
  else if op = 0x04 then decodeR w .subs
  else if op = 0x05 then decodeR w .and
  else if op = 0x06 then decodeR w .orr
  else if op = 0x07 then decodeR w .eor
  else if op = 0x08 then decodeR w .mul
  else if op = 0x09 then decodeR w .lsl
  else if op = 0x0A then decodeR w .lsr
  else if op = 0x11 then decodeI w .addi
  else if op = 0x12 then decodeI w .subi
  else if op = 0x13 then decodeI w .addis
  else if op = 0x14 then decodeI w .subis
  else if op = 0x15 then decodeI w .andi
  else if op = 0x16 then decodeI w .orri
  else if op = 0x17 then decodeI w .eori
  else if op = 0x18 then decodeIM w .movz
  else if op = 0x19 then decodeIM w .movk
  else if op = 0x21 then decodeI w .ldur
  else if op = 0x22 then decodeI w .stur
  else if op = 0x23 then decodeI w .ldurw
  else if op = 0x24 then decodeI w .sturw
  else if op = 0x25 then decodeI w .ldurb
  else if op = 0x26 then decodeI w .sturb
  else if op = 0x31 then decodeB w .b
  else if op = 0x32 then decodeB w .bl
  else if op = 0x33 then decodeBR w
  else if op = 0x34 then decodeCB w .cbz
  else if op = 0x35 then decodeCB w .cbnz
  else if op = 0x36 then decodeCC w
  else .illegal w

/-- The decoder (30_encoding R131). -/
def decode (w : InstrWord) : Decoded := decodeOp (w.extractLsb' 24 8) w

/-- R-format word (30_encoding R121). -/
def encodeR (op : BitVec 8) (rd rn rm : RegIdx) : InstrWord := op ++ 0#3 ++ rm ++ 0#6 ++ rn ++ rd

/-- I-format and D-format word (30_encoding R122, R124). -/
def encodeI (op : BitVec 8) (rd rn : RegIdx) (imm : Imm) : InstrWord := op ++ 0#2 ++ imm ++ rn ++ rd

/-- IM-format word (30_encoding R123). -/
def encodeIM (op : BitVec 8) (rd : RegIdx) (imm : Imm) : InstrWord := encodeI op rd 31#5 imm

/-- B-format word (30_encoding R125); none for an unresolved target, which a word cannot express (R112). -/
def encodeB (op : BitVec 8) : Target 24 → Option InstrWord
  | .resolved tidx => some (op ++ tidx)
  | .unresolved _ => none

/-- BR-format word (30_encoding R126). -/
def encodeBR (rn : RegIdx) : InstrWord := 0x33#8 ++ 0#14 ++ rn ++ 0#5

/-- CB-format word (30_encoding R127). -/
def encodeCB (op : BitVec 8) (rt : RegIdx) : Target 19 → Option InstrWord
  | .resolved tidx => some (op ++ tidx ++ rt)
  | .unresolved _ => none

/-- CC-format word with the condition bits `cond` (30_encoding R128). -/
def encodeCC (cond : BitVec 4) (tidx : BitVec 19) : InstrWord := 0x36#8 ++ tidx ++ 0#1 ++ cond

/-- CC-format word of a condition and a target. -/
def encodeCond (c : Cond) : Target 19 → Option InstrWord
  | .resolved tidx => some (encodeCC c.bits tidx)
  | .unresolved _ => none

/-- `encode` (30_encoding R139): the word of a resolved instruction, none for an unresolved branch. -/
def encode : Instr → Option InstrWord
  | .add rd rn rm => some (encodeR 0x01 rd rn rm)
  | .sub rd rn rm => some (encodeR 0x02 rd rn rm)
  | .adds rd rn rm => some (encodeR 0x03 rd rn rm)
  | .subs rd rn rm => some (encodeR 0x04 rd rn rm)
  | .and rd rn rm => some (encodeR 0x05 rd rn rm)
  | .orr rd rn rm => some (encodeR 0x06 rd rn rm)
  | .eor rd rn rm => some (encodeR 0x07 rd rn rm)
  | .mul rd rn rm => some (encodeR 0x08 rd rn rm)
  | .lsl rd rn rm => some (encodeR 0x09 rd rn rm)
  | .lsr rd rn rm => some (encodeR 0x0A rd rn rm)
  | .addi rd rn imm => some (encodeI 0x11 rd rn imm)
  | .subi rd rn imm => some (encodeI 0x12 rd rn imm)
  | .addis rd rn imm => some (encodeI 0x13 rd rn imm)
  | .subis rd rn imm => some (encodeI 0x14 rd rn imm)
  | .andi rd rn imm => some (encodeI 0x15 rd rn imm)
  | .orri rd rn imm => some (encodeI 0x16 rd rn imm)
  | .eori rd rn imm => some (encodeI 0x17 rd rn imm)
  | .movz rd imm => some (encodeIM 0x18 rd imm)
  | .movk rd imm => some (encodeIM 0x19 rd imm)
  | .ldur rt rn imm => some (encodeI 0x21 rt rn imm)
  | .stur rt rn imm => some (encodeI 0x22 rt rn imm)
  | .ldurw rt rn imm => some (encodeI 0x23 rt rn imm)
  | .sturw rt rn imm => some (encodeI 0x24 rt rn imm)
  | .ldurb rt rn imm => some (encodeI 0x25 rt rn imm)
  | .sturb rt rn imm => some (encodeI 0x26 rt rn imm)
  | .b t => encodeB 0x31 t
  | .bl t => encodeB 0x32 t
  | .br rn => some (encodeBR rn)
  | .cbz rt t => encodeCB 0x34 rt t
  | .cbnz rt t => encodeCB 0x35 rt t
  | .bEq t => encodeCond .eq t
  | .bNe t => encodeCond .ne t
  | .bLt t => encodeCond .lt t
  | .bLe t => encodeCond .le t
  | .bGt t => encodeCond .gt t
  | .bGe t => encodeCond .ge t
  | .bLo t => encodeCond .lo t
  | .bLs t => encodeCond .ls t
  | .bHi t => encodeCond .hi t
  | .bHs t => encodeCond .hs t

/-- `encode` over everything the decoder accepts: the CondB words without a condition included (30_encoding R131, R139). -/
def encodeDecoded : Decoded → Option InstrWord
  | .instr i => encode i
  | .reservedCondition cond tidx => some (encodeCC cond tidx)
  | .illegal _ => none

/-- The four bytes of a stored word, least significant first (30_encoding R161). -/
def bytesOfWord (w : InstrWord) : List Byte :=
  [w.extractLsb' 0 8, w.extractLsb' 8 8, w.extractLsb' 16 8, w.extractLsb' 24 8]

/-- A program image stored as bytes, one word every four bytes (30_encoding R161): its words, and the bytes left over where
their number is no multiple of 4. -/
def wordsOfBytes : List Byte → List InstrWord × List Byte
  | b0 :: b1 :: b2 :: b3 :: rest =>
    ((b3 ++ b2 ++ b1 ++ b0 : InstrWord) :: (wordsOfBytes rest).1, (wordsOfBytes rest).2)
  | rest => ([], rest)

/-- Decode the instruction at the head of a byte list and give the bytes after it; none where fewer than the four bytes of an
instruction (30_encoding R110) are left. -/
def decodeBytes : List Byte → Option (Decoded × List Byte)
  | b0 :: b1 :: b2 :: b3 :: rest => some (decode (b3 ++ b2 ++ b1 ++ b0 : InstrWord), rest)
  | _ => none

/-- The instruction the decoder reads from an instruction whose bits are `w`, numbered as spec/opcode_table.json numbers them
(bit 0 the least significant bit of the word), the bits from `nbits` on being zero. -/
def decodeTableWord (nbits w : Nat) : Option Instr :=
  if nbits ≤ 32 then
    match decodeBytes (bytesOfWord (BitVec.ofNat 32 (w % 2 ^ nbits))) with
    | some (.instr i, _) => some i
    | _ => none
  else none

end Sys2Proof
end

