-- ==== Sys2Proof/Machine/State.lean ====
section
/-! DEFINITION. The state of the core (10_state R30) as plain data, with the parameters of the step relation and the outputs of
the core beside it, the answers a step request can have, and the state after reset. -/

namespace Sys2Proof.Machine

/-- Data memory as (address, byte) pairs: addresses rising, no byte 0 listed; an unlisted address reads 0 (10_state R49). -/
abbrev Memory := List Host.Cell

/-- The condition flags N, Z, V, C (10_state R41). -/
structure Flags where
  n : Bool
  z : Bool
  v : Bool
  c : Bool
  deriving DecidableEq, Repr

/-- The fault names of 60_exceptions R301. -/
inductive FaultCode where
  | invalidRegister
  | outOfBounds
  | misalignedAccess
  | unsupportedInstruction
  | unsupportedCondition
  | unresolvedBranchTarget
  | divisionByZero
  | cpuHalted
  | fetchFault
  deriving DecidableEq, Repr

/-- What the fault latch holds: the code, the pc of the faulting instruction, and the effective address, an unwrapped
integer (10_state R47, 80_host_interface R371). -/
structure FaultRecord where
  code : FaultCode
  pc : Word
  addr : Int
  deriving DecidableEq, Repr

/-- The five answers to a step request (44_step_cycle R281, 80_host_interface R361). -/
inductive StepOutcome where
  | ok
  | fault (code : FaultCode)
  | refusedCpuHalted
  | completed
  | stopped
  deriving DecidableEq, Repr

/-- The kind of a memory event (80_host_interface R364). -/
inductive AccessKind where
  | read
  | write
  deriving DecidableEq, Repr

/-- One entry of the memory change set (80_host_interface R364). -/
structure MemEvent where
  kind : AccessKind
  addr : Int
  value : Int
  deriving DecidableEq, Repr

/-- The machine. First the state of 10_state R30; then the parameters PROG and MEM_CAP, which no step changes
(notes/assumptions/1, 2); then the outputs of the last step request (notes/assumptions/6); then the model's own
index of free values (notes/assumptions/5). -/
structure State where
  /-- x[0] to x[30] (10_state R31); x[31] holds nothing (R34). -/
  regs : Vector Word 31
  /-- The program counter, a signed byte address (10_state R37). -/
  pc : Word
  /-- The condition flags (10_state R41). -/
  flags : Flags
  /-- The data memory (10_state R49). -/
  mem : Memory
  /-- The instruction counter (10_state R43). -/
  instrCount : Nat
  /-- The cycle counter (10_state R44). -/
  cycleCount : Nat
  /-- The halted flag (10_state R45). -/
  halted : Bool
  /-- The most recently executed instruction (10_state R46). -/
  lastInstr : Option Decoded
  /-- The fault latch (10_state R47). -/
  fault : Option FaultRecord
  /-- PARAMETER: the program store PROG; N is its length (00_scope R11, 10_state R50). -/
  prog : List InstrWord
  /-- PARAMETER: MEM_CAP (00_scope R9). -/
  memCap : Nat
  /-- OUTPUT: the answer to the last step request since reset (44_step_cycle R281). -/
  outcome : Option StepOutcome
  /-- OUTPUT: the register change set of the last step (80_host_interface R364). -/
  regChanges : List RegIdx
  /-- OUTPUT: the memory change set of the last step (80_host_interface R364). -/
  memChanges : List MemEvent
  /-- MODEL: the index of the next free value. -/
  draws : Nat
  deriving DecidableEq, Repr

/-- A step that stops with a fault of the model. NO CONSTRUCTOR, so nobody raises one: every fault the spec names is taken as
60_exceptions R312 describes, a next state with the latch set, and a stopped core answers the next step request in
`State.outcome` (notes/assumptions/7). Safe: no behaviour of the spec is cut off. -/
inductive Fault where
  deriving DecidableEq, Repr

/-- A step the model refuses. -/
inductive Refusal where
  /-- Raised by an arm of `exec` whose instruction has no meaning yet; no arm raises it. Safe: the run ends there. -/
  | notModelled (mnemonic : String)
  deriving DecidableEq, Repr

/-- The machine right after reset (10_state R53), with the default capacity (00_scope R9), no program loaded
(notes/assumptions/1), no step answered yet and no free value drawn. -/
def State.reset : State where
  regs := Vector.replicate 31 0
  pc := 0
  flags := ⟨false, false, false, false⟩
  mem := []
  instrCount := 0
  cycleCount := 0
  halted := false
  lastInstr := none
  fault := none
  prog := []
  memCap := Config.defaultMemCap
  outcome := none
  regChanges := []
  memChanges := []
  draws := 0

end Sys2Proof.Machine
end

