-- ==== Sys2Proof/Machine/Operands.lean ====
section
/-! DEFINITION. The integer arithmetic of the spec's notation (00_scope R16 to R18) and every operand form: immediates, shift
amounts, effective addresses, branch targets, the link value. -/

namespace Sys2Proof.Machine

/-- `wrap64`: the 64-bit word congruent to an integer (00_scope R16); its `toInt` is the signed value. -/
def wrap64 (z : Int) : Word := BitVec.ofInt 64 z

/-- `wrap32`, as an integer in [-2^31, 2^31 - 1] (00_scope R16). -/
def wrap32 (z : Int) : Int := (BitVec.ofInt 32 z).toInt

/-- `u64`: the unsigned reading of a register value (00_scope R16). -/
def u64 (v : Word) : Nat := v.toNat

/-- An immediate as a signed integer (30_encoding R132). -/
def immValue (imm : Imm) : Int := imm.toInt

/-- An immediate as a 64-bit pattern, sign-extended: the operand of ANDI, ORRI, EORI (41_itype_immediate R200). -/
def immPattern (imm : Imm) : Word := wrap64 (immValue imm)

/-- The shift amount of LSL and LSR: the low 6 bits of the second operand (40_rtype_register R190, R191). -/
def shiftAmount (v : Word) : Nat := u64 v % 64

/-- LSL (40_rtype_register R190). -/
def shiftLeft (a b : Word) : Word := wrap64 (a.toInt * 2 ^ shiftAmount b)

/-- LSR: the value is unsigned before the shift (40_rtype_register R191). -/
def shiftRight (a b : Word) : Word := wrap64 (u64 a / 2 ^ shiftAmount b : Nat)

/-- MOVK's result: bits 63:16 of the old value, bits 15:0 of the immediate (41_itype_immediate R209). -/
def keepUpper (old : Word) (imm : Imm) : Word :=
  wrap64 ((u64 old : Int) - (u64 old % 2 ^ 16 : Nat) + immValue imm % 2 ^ 16)

/-- The effective address: base value plus offset, a mathematical integer that nothing wraps
(42_dtype_load_store R220). -/
def effectiveAddress (base : Word) (imm : Imm) : Int := base.toInt + immValue imm

/-- The value a store of `n` bytes puts out: the low 8n bits of the register (42_dtype_load_store R222, R224, R226). -/
def storeValue (v : Word) (n : Nat) : Nat := u64 v % 2 ^ (8 * n)

/-- The byte address of an instruction index, absolute (30_encoding R133). -/
def targetAddress {w : Nat} (tidx : BitVec w) : Word := wrap64 (4 * tidx.toNat : Nat)

/-- `wrap64(pc + 4)`: the next instruction, and BL's link value (10_state R40, 43_branch R242). -/
def nextPc (pc : Word) : Word := wrap64 (pc.toInt + 4)

end Sys2Proof.Machine
end

