-- ==== Sys2Proof/Machine/Ops.lean ====
section
/-! DEFINITION. The named operations over registers, memory and the step: register access (10_state R32, R33), memory access
(20_memory R72 to R78), what stands around every instruction (44_step_cycle R285), taking a fault (60_exceptions R312) and
the one way out of it, reset (R318). -/

namespace Sys2Proof.Machine

/-! ### Registers -/

/-- Register read `x[i]`; register 31 reads 0 (10_state R32, R34). -/
def State.x (s : State) (i : RegIdx) : Word :=
  if h : i.toNat < 31 then s.regs[i.toNat] else 0

/-- Register write `x[i] <- v`; a write to register 31 is discarded; the register change set gains `i` when the stored value
changed (10_state R33, R34). -/
def State.writeReg (s : State) (i : RegIdx) (v : Word) : State :=
  if h : i.toNat < 31 then
    { s with
      regs := s.regs.set i.toNat v h
      regChanges := if s.regs[i.toNat] = v then s.regChanges else s.regChanges ++ [i] }
  else s

/-! ### Data memory -/

/-- The canonical form of a memory: addresses strictly rising, no byte equal to what an unlisted address reads as. -/
abbrev Memory.wf (m : Memory) : Prop :=
  m.Pairwise (fun p q => p.1 < q.1) ∧ ∀ p ∈ m, p.2 ≠ 0

/-- Every listed address is below the capacity (10_state R49). -/
abbrev Memory.within (m : Memory) (cap : Nat) : Prop := ∀ p ∈ m, p.1 < cap

/-- The byte at an address; never written reads 0 (20_memory R72). -/
def Memory.byte : Memory → Nat → Byte
  | [], _ => 0
  | (k, b) :: rest, a => if k = a then b else Memory.byte rest a

/-- List the byte `b` at address `a`, in the place the rising order gives it. -/
def Memory.insertByte : Memory → Nat → Byte → Memory
  | [], a, b => [(a, b)]
  | (k, c) :: rest, a, b =>
    if a < k then (a, b) :: (k, c) :: rest else (k, c) :: Memory.insertByte rest a b

/-- Put a byte at an address: the old entry goes, and a byte other than 0 is listed (20_memory R73). -/
def Memory.setByte (m : Memory) (a : Nat) (b : Byte) : Memory :=
  if b = 0 then m.filter (fun p => p.1 != a) else Memory.insertByte (m.filter (fun p => p.1 != a)) a b

/-- The `n` bytes from address `a` up, little-endian, as an unsigned integer (20_memory R76, R77). -/
def Memory.readLE (m : Memory) (a : Nat) : Nat → Nat
  | 0 => 0
  | n + 1 => (m.byte a).toNat + 256 * Memory.readLE m (a + 1) n

/-- Put the low `8n` bits of `v` at the `n` addresses from `a` up, little-endian (20_memory R76, R78). -/
def Memory.writeLE (m : Memory) (a : Nat) : Nat → Nat → Memory
  | 0, _ => m
  | n + 1, v => Memory.writeLE (m.setByte a (BitVec.ofNat 8 v)) (a + 1) n (v / 256)

/-- The fault an access of `n` bytes at `addr` raises: alignment is tested first, then the whole range
(20_memory R77, R78, R80). -/
def accessFault (cap : Nat) (addr : Int) (n : Nat) : Option FaultCode :=
  if 1 < n ∧ addr % n ≠ 0 then some .misalignedAccess
  else if addr < 0 ∨ (cap : Int) < addr + n then some .outOfBounds
  else none

/-- `MemRead(addr, n)` (20_memory R77). -/
def State.memRead (s : State) (addr : Int) (n : Nat) : Except FaultCode Nat :=
  match accessFault s.memCap addr n with
  | some code => .error code
  | none => .ok (s.mem.readLE addr.toNat n)

/-- `MemWrite(addr, n, v)` (20_memory R78). -/
def State.memWrite (s : State) (addr : Int) (n : Nat) (v : Int) : Except FaultCode State :=
  match accessFault s.memCap addr n with
  | some code => .error code
  | none => .ok { s with mem := s.mem.writeLE addr.toNat n (v % 2 ^ (8 * n)).toNat }

/-- `report_mem`: add an event to the memory change set (80_host_interface R364). -/
def State.reportMem (s : State) (kind : AccessKind) (addr value : Int) : State :=
  { s with memChanges := s.memChanges ++ [⟨kind, addr, value⟩] }

/-! ### Around an instruction -/

/-- Both change sets are empty when an instruction begins (44_step_cycle R285). -/
def State.begin (s : State) : State := { s with regChanges := [], memChanges := [] }

/-- The end of an instruction that wrote the pc: counters, `last_instr`, outcome Ok, and the new pc
(44_step_cycle R284, R285). -/
def State.retireTo (s : State) (i : Instr) (pc : Word) : State :=
  { s with
    instrCount := s.instrCount + 1
    cycleCount := s.cycleCount + 1
    pc := pc
    lastInstr := some (.instr i)
    outcome := some .ok }

/-- The end of an instruction that did not write the pc: it advances by 4 (44_step_cycle R285). -/
def State.retire (s : State) (i : Instr) : State := s.retireTo i (nextPc s.pc)

/-- A whole instruction whose one effect is a register write. -/
def State.writeResult (s : State) (i : Instr) (rd : RegIdx) (v : Word) : State :=
  (s.begin.writeReg rd v).retire i

/-! ### Faults -/

/-- The number of a fault (60_exceptions R301). -/
def FaultCode.number : FaultCode → Nat
  | .invalidRegister => 1
  | .outOfBounds => 2
  | .misalignedAccess => 3
  | .unsupportedInstruction => 4
  | .unsupportedCondition => 5
  | .unresolvedBranchTarget => 6
  | .divisionByZero => 7
  | .cpuHalted => 8
  | .fetchFault => 9

/-- Set the fault latch to (code, pc, addr); the outcome is Fault(code) and no change is reported
(60_exceptions R312, 44_step_cycle R283, R286). -/
def State.latch (s : State) (code : FaultCode) (addr : Int) : State :=
  { s with
    fault := some ⟨code, s.pc, addr⟩
    outcome := some (.fault code)
    regChanges := []
    memChanges := [] }

/-- `raise E`: TAKING A FAULT, for every instruction (60_exceptions R312, 44_step_cycle R286). The latch is set; registers, flags,
memory and pc stay. Each counter moves by 0 or 1 and `last_instr` stays or becomes the faulting instruction, by free
values (60_exceptions R314, 10_state R46; notes/assumptions/3, 4). -/
def State.takeFault (s : State) (code : FaultCode) (addr : Int) (d : Decoded) : State :=
  { s.latch code addr with
    instrCount := s.instrCount + (Config.faultCountsInstr s.draws).toNat
    cycleCount := s.cycleCount + (Config.faultCountsCycle s.draws).toNat
    lastInstr := if Config.faultRecordsInstr s.draws then some d else s.lastInstr
    draws := s.draws + 1 }

/-- The host's `reset`, the only way out of a fault: every piece of state takes its reset value, PROG and MEM_CAP stay
(60_exceptions R318, 70_reset_and_hazards R340). The index of free values goes on (notes/assumptions/5). -/
def State.hostReset (s : State) : State :=
  { State.reset with prog := s.prog, memCap := s.memCap, draws := s.draws }

/-! ### Whole memory instructions and branches -/

/-- A whole load: read `n` bytes at `ea`, convert, write the register, report the event; or take the access's fault
(42_dtype_load_store R227, R228). -/
def State.load (s : State) (i : Instr) (rt : RegIdx) (ea : Int) (n : Nat) (convert : Nat → Int) : State :=
  match s.memRead ea n with
  | .error code => s.takeFault code ea (.instr i)
  | .ok u => ((s.begin.writeReg rt (wrap64 (convert u))).reportMem .read ea (convert u)).retire i

/-- A whole store of the `n`-byte value `u` at `ea`, with its event; or the access's fault
(42_dtype_load_store R227, R228). -/
def State.store (s : State) (i : Instr) (ea : Int) (n : Nat) (u : Nat) : State :=
  match s.begin.memWrite ea n u with
  | .error code => s.takeFault code ea (.instr i)
  | .ok s' => (s'.reportMem .write ea u).retire i

/-- A taken branch (43_branch R240): the pc becomes the target; an unresolved target faults (R241, R307). -/
def State.branch {w : Nat} (s : State) (i : Instr) : Target w → State
  | .resolved tidx => s.begin.retireTo i (targetAddress tidx)
  | .unresolved _ => s.takeFault .unresolvedBranchTarget 0 (.instr i)

/-- A branch taken when `taken` holds; otherwise nothing but the advance by 4, and the target is not looked at
(43_branch R240, R244, R246). -/
def State.branchIf {w : Nat} (s : State) (i : Instr) (taken : Bool) (t : Target w) : State :=
  if taken then s.branch i t else s.begin.retire i

end Sys2Proof.Machine
end

