-- ==== Sys2Proof/Machine/Flags.lean ====
section
/-! DEFINITION. The condition flags: `SetFlags` (40_rtype_register R181) and the condition predicates (43_branch R249). -/

namespace Sys2Proof.Machine

/-- The flags of a wrapped result: N its sign, Z whether it is zero, V and C false always (40_rtype_register R181). -/
def flagsOf (r : Word) : Flags where
  n := decide (r.toInt < 0)
  z := decide (r = 0)
  v := false
  c := false

/-- `SetFlags(r)` (40_rtype_register R181). -/
def State.setFlags (s : State) (r : Word) : State := { s with flags := flagsOf r }

/-- A whole instruction that writes a register and sets the flags from the same result (40_rtype_register R184). -/
def State.writeResultFlags (s : State) (i : Instr) (rd : RegIdx) (r : Word) : State :=
  ((s.begin.setFlags r).writeReg rd r).retire i

/-- `Holds(cond, N, Z, V, C)`, for all sixteen values of the flags (43_branch R249). -/
def condHolds (f : Flags) : Cond → Bool
  | .eq => f.z
  | .ne => !f.z
  | .lt => f.n != f.v
  | .le => f.n != f.v || f.z
  | .gt => !f.z && f.n == f.v
  | .ge => f.n == f.v
  | .lo => !f.c
  | .ls => !f.c || f.z
  | .hi => f.c && !f.z
  | .hs => f.c

end Sys2Proof.Machine
end

