-- ==== Sys2Proof/Machine/Branch.lean ====
section
/-! DEFINITION. The branches (43_branch R240 to R260), and what a CondB word without a condition does when executed (R246).
Targets are absolute and never checked; only BL writes a register; none writes a flag. -/

namespace Sys2Proof.Machine

/-- B (43_branch R241). -/
def execB (target : Target 24) (s : State) : Host.Outcome State Fault Refusal :=
  .next (s.branch (.b target) target)

/-- BL: the target is tested, then register 30 gets `pc + 4`, then the pc gets the target (43_branch R242). -/
def execBl (target : Target 24) (s : State) : Host.Outcome State Fault Refusal :=
  match target with
  | .resolved tidx => .next ((s.begin.writeReg 30#5 (nextPc s.pc)).retireTo (.bl target) (targetAddress tidx))
  | .unresolved _ => .next (s.takeFault .unresolvedBranchTarget 0 (.instr (.bl target)))

/-- BR: the whole 64-bit value, unchecked (43_branch R243). -/
def execBr (rn : RegIdx) (s : State) : Host.Outcome State Fault Refusal :=
  .next (s.begin.retireTo (.br rn) (s.x rn))

/-- CBZ (43_branch R244). -/
def execCbz (rt : RegIdx) (target : Target 19) (s : State) : Host.Outcome State Fault Refusal :=
  .next (s.branchIf (.cbz rt target) (decide (s.x rt = 0)) target)

/-- CBNZ (43_branch R245). -/
def execCbnz (rt : RegIdx) (target : Target 19) (s : State) : Host.Outcome State Fault Refusal :=
  .next (s.branchIf (.cbnz rt target) (decide (s.x rt ≠ 0)) target)

/-- B.EQ (43_branch R246, R251). -/
def execBEq (target : Target 19) (s : State) : Host.Outcome State Fault Refusal :=
  .next (s.branchIf (.bEq target) (condHolds s.flags .eq) target)

/-- B.NE (43_branch R246, R252). -/
def execBNe (target : Target 19) (s : State) : Host.Outcome State Fault Refusal :=
  .next (s.branchIf (.bNe target) (condHolds s.flags .ne) target)

/-- B.LT (43_branch R246, R253). -/
def execBLt (target : Target 19) (s : State) : Host.Outcome State Fault Refusal :=
  .next (s.branchIf (.bLt target) (condHolds s.flags .lt) target)

/-- B.LE (43_branch R246, R254). -/
def execBLe (target : Target 19) (s : State) : Host.Outcome State Fault Refusal :=
  .next (s.branchIf (.bLe target) (condHolds s.flags .le) target)

/-- B.GT (43_branch R246, R255). -/
def execBGt (target : Target 19) (s : State) : Host.Outcome State Fault Refusal :=
  .next (s.branchIf (.bGt target) (condHolds s.flags .gt) target)

/-- B.GE (43_branch R246, R256). -/
def execBGe (target : Target 19) (s : State) : Host.Outcome State Fault Refusal :=
  .next (s.branchIf (.bGe target) (condHolds s.flags .ge) target)

/-- B.LO (43_branch R246, R257). -/
def execBLo (target : Target 19) (s : State) : Host.Outcome State Fault Refusal :=
  .next (s.branchIf (.bLo target) (condHolds s.flags .lo) target)

/-- B.LS (43_branch R246, R258). -/
def execBLs (target : Target 19) (s : State) : Host.Outcome State Fault Refusal :=
  .next (s.branchIf (.bLs target) (condHolds s.flags .ls) target)

/-- B.HI (43_branch R246, R259). -/
def execBHi (target : Target 19) (s : State) : Host.Outcome State Fault Refusal :=
  .next (s.branchIf (.bHi target) (condHolds s.flags .hi) target)

/-- B.HS (43_branch R246, R260). -/
def execBHs (target : Target 19) (s : State) : Host.Outcome State Fault Refusal :=
  .next (s.branchIf (.bHs target) (condHolds s.flags .hs) target)

/-- A CondB whose condition is none of the ten: a fault whatever the flags are (30_encoding R136, 43_branch R246). -/
def execReservedCondition (cond : BitVec 4) (tidx : BitVec 19) (s : State) : Host.Outcome State Fault Refusal :=
  .next (s.takeFault .unsupportedCondition 0 (.reservedCondition cond tidx))

/-- An illegal word (30_encoding R135, 60_exceptions R305). -/
def execIllegal (w : InstrWord) (s : State) : Host.Outcome State Fault Refusal :=
  .next (s.takeFault .unsupportedInstruction 0 (.illegal w))

end Sys2Proof.Machine
end

