-- ==== Sys2Proof/Machine/DType.lean ====
section
/-! DEFINITION. The D-type instructions (42_dtype_load_store R220 to R228): base register plus signed offset, natural
alignment, alignment tested before bounds. -/

namespace Sys2Proof.Machine

/-- LDUR: 8 bytes, as a signed 64-bit integer (42_dtype_load_store R221). -/
def execLdur (rt rn : RegIdx) (imm : Imm) (s : State) : Host.Outcome State Fault Refusal :=
  .next (s.load (.ldur rt rn imm) rt (effectiveAddress (s.x rn) imm) 8 (fun u => (wrap64 u).toInt))

/-- STUR: all 64 bits (42_dtype_load_store R222). -/
def execStur (rt rn : RegIdx) (imm : Imm) (s : State) : Host.Outcome State Fault Refusal :=
  .next (s.store (.stur rt rn imm) (effectiveAddress (s.x rn) imm) 8 (storeValue (s.x rt) 8))

/-- LDURW: 4 bytes, sign-extended (42_dtype_load_store R223). -/
def execLdurw (rt rn : RegIdx) (imm : Imm) (s : State) : Host.Outcome State Fault Refusal :=
  .next (s.load (.ldurw rt rn imm) rt (effectiveAddress (s.x rn) imm) 4 (fun u => wrap32 u))

/-- STURW: the low 32 bits (42_dtype_load_store R224). -/
def execSturw (rt rn : RegIdx) (imm : Imm) (s : State) : Host.Outcome State Fault Refusal :=
  .next (s.store (.sturw rt rn imm) (effectiveAddress (s.x rn) imm) 4 (storeValue (s.x rt) 4))

/-- LDURB: 1 byte, zero-extended (42_dtype_load_store R225). -/
def execLdurb (rt rn : RegIdx) (imm : Imm) (s : State) : Host.Outcome State Fault Refusal :=
  .next (s.load (.ldurb rt rn imm) rt (effectiveAddress (s.x rn) imm) 1 (fun u => u))

/-- STURB: the low 8 bits (42_dtype_load_store R226). -/
def execSturb (rt rn : RegIdx) (imm : Imm) (s : State) : Host.Outcome State Fault Refusal :=
  .next (s.store (.sturb rt rn imm) (effectiveAddress (s.x rn) imm) 1 (storeValue (s.x rt) 1))

end Sys2Proof.Machine
end

