-- ==== Sys2Proof/Machine/IType.lean ====
section
/-! DEFINITION. The I-type instructions (41_itype_immediate R200 to R209): one source register and a signed 12-bit
immediate. None can fault; only ADDIS and SUBIS write flags. -/

namespace Sys2Proof.Machine

/-- ADDI (41_itype_immediate R201). -/
def execAddi (rd rn : RegIdx) (imm : Imm) (s : State) : Host.Outcome State Fault Refusal :=
  .next (s.writeResult (.addi rd rn imm) rd (wrap64 ((s.x rn).toInt + immValue imm)))

/-- SUBI (41_itype_immediate R202). -/
def execSubi (rd rn : RegIdx) (imm : Imm) (s : State) : Host.Outcome State Fault Refusal :=
  .next (s.writeResult (.subi rd rn imm) rd (wrap64 ((s.x rn).toInt - immValue imm)))

/-- ADDIS (41_itype_immediate R203). -/
def execAddis (rd rn : RegIdx) (imm : Imm) (s : State) : Host.Outcome State Fault Refusal :=
  .next (s.writeResultFlags (.addis rd rn imm) rd (wrap64 ((s.x rn).toInt + immValue imm)))

/-- SUBIS (41_itype_immediate R204). -/
def execSubis (rd rn : RegIdx) (imm : Imm) (s : State) : Host.Outcome State Fault Refusal :=
  .next (s.writeResultFlags (.subis rd rn imm) rd (wrap64 ((s.x rn).toInt - immValue imm)))

/-- ANDI (41_itype_immediate R205). -/
def execAndi (rd rn : RegIdx) (imm : Imm) (s : State) : Host.Outcome State Fault Refusal :=
  .next (s.writeResult (.andi rd rn imm) rd (s.x rn &&& immPattern imm))

/-- ORRI (41_itype_immediate R206). -/
def execOrri (rd rn : RegIdx) (imm : Imm) (s : State) : Host.Outcome State Fault Refusal :=
  .next (s.writeResult (.orri rd rn imm) rd (s.x rn ||| immPattern imm))

/-- EORI (41_itype_immediate R207). -/
def execEori (rd rn : RegIdx) (imm : Imm) (s : State) : Host.Outcome State Fault Refusal :=
  .next (s.writeResult (.eori rd rn imm) rd (s.x rn ^^^ immPattern imm))

/-- MOVZ: the signed immediate as it is, no source (41_itype_immediate R208). -/
def execMovz (rd : RegIdx) (imm : Imm) (s : State) : Host.Outcome State Fault Refusal :=
  .next (s.writeResult (.movz rd imm) rd (wrap64 (immValue imm)))

/-- MOVK: reads its destination and replaces its low 16 bits (41_itype_immediate R209). -/
def execMovk (rd : RegIdx) (imm : Imm) (s : State) : Host.Outcome State Fault Refusal :=
  .next (s.writeResult (.movk rd imm) rd (keepUpper (s.x rd) imm))

end Sys2Proof.Machine
end

