-- ==== Sys2Proof/Machine/RType.lean ====
section
/-! DEFINITION. The R-type instructions (40_rtype_register R180 to R191): two source registers, read before the
destination is written. None can fault; only ADDS and SUBS write flags. -/

namespace Sys2Proof.Machine

/-- ADD (40_rtype_register R182). -/
def execAdd (rd rn rm : RegIdx) (s : State) : Host.Outcome State Fault Refusal :=
  .next (s.writeResult (.add rd rn rm) rd (wrap64 ((s.x rn).toInt + (s.x rm).toInt)))

/-- SUB (40_rtype_register R183). -/
def execSub (rd rn rm : RegIdx) (s : State) : Host.Outcome State Fault Refusal :=
  .next (s.writeResult (.sub rd rn rm) rd (wrap64 ((s.x rn).toInt - (s.x rm).toInt)))

/-- ADDS (40_rtype_register R184). -/
def execAdds (rd rn rm : RegIdx) (s : State) : Host.Outcome State Fault Refusal :=
  .next (s.writeResultFlags (.adds rd rn rm) rd (wrap64 ((s.x rn).toInt + (s.x rm).toInt)))

/-- SUBS (40_rtype_register R185). -/
def execSubs (rd rn rm : RegIdx) (s : State) : Host.Outcome State Fault Refusal :=
  .next (s.writeResultFlags (.subs rd rn rm) rd (wrap64 ((s.x rn).toInt - (s.x rm).toInt)))

/-- AND (40_rtype_register R186). -/
def execAnd (rd rn rm : RegIdx) (s : State) : Host.Outcome State Fault Refusal :=
  .next (s.writeResult (.and rd rn rm) rd (s.x rn &&& s.x rm))

/-- ORR (40_rtype_register R187). -/
def execOrr (rd rn rm : RegIdx) (s : State) : Host.Outcome State Fault Refusal :=
  .next (s.writeResult (.orr rd rn rm) rd (s.x rn ||| s.x rm))

/-- EOR (40_rtype_register R188). -/
def execEor (rd rn rm : RegIdx) (s : State) : Host.Outcome State Fault Refusal :=
  .next (s.writeResult (.eor rd rn rm) rd (s.x rn ^^^ s.x rm))

/-- MUL, the low 64 bits of the product (40_rtype_register R189). -/
def execMul (rd rn rm : RegIdx) (s : State) : Host.Outcome State Fault Refusal :=
  .next (s.writeResult (.mul rd rn rm) rd (wrap64 ((s.x rn).toInt * (s.x rm).toInt)))

/-- LSL (40_rtype_register R190). -/
def execLsl (rd rn rm : RegIdx) (s : State) : Host.Outcome State Fault Refusal :=
  .next (s.writeResult (.lsl rd rn rm) rd (shiftLeft (s.x rn) (s.x rm)))

/-- LSR (40_rtype_register R191). -/
def execLsr (rd rn rm : RegIdx) (s : State) : Host.Outcome State Fault Refusal :=
  .next (s.writeResult (.lsr rd rn rm) rd (shiftRight (s.x rn) (s.x rm)))

end Sys2Proof.Machine
end

