-- ==== Sys2Proof/Machine/Dispatch.lean ====
section
/-! DEFINITION. One arm per instruction, each one call of its meaning. -/

namespace Sys2Proof.Machine

def exec (i : Instr) (s : State) : Host.Outcome State Fault Refusal :=
  match i with
  | .add rd rn rm => Sys2Proof.Machine.execAdd rd rn rm s
  | .sub rd rn rm => Sys2Proof.Machine.execSub rd rn rm s
  | .adds rd rn rm => Sys2Proof.Machine.execAdds rd rn rm s
  | .subs rd rn rm => Sys2Proof.Machine.execSubs rd rn rm s
  | .and rd rn rm => Sys2Proof.Machine.execAnd rd rn rm s
  | .orr rd rn rm => Sys2Proof.Machine.execOrr rd rn rm s
  | .eor rd rn rm => Sys2Proof.Machine.execEor rd rn rm s
  | .mul rd rn rm => Sys2Proof.Machine.execMul rd rn rm s
  | .lsl rd rn rm => Sys2Proof.Machine.execLsl rd rn rm s
  | .lsr rd rn rm => Sys2Proof.Machine.execLsr rd rn rm s
  | .addi rd rn imm => Sys2Proof.Machine.execAddi rd rn imm s
  | .subi rd rn imm => Sys2Proof.Machine.execSubi rd rn imm s
  | .addis rd rn imm => Sys2Proof.Machine.execAddis rd rn imm s
  | .subis rd rn imm => Sys2Proof.Machine.execSubis rd rn imm s
  | .andi rd rn imm => Sys2Proof.Machine.execAndi rd rn imm s
  | .orri rd rn imm => Sys2Proof.Machine.execOrri rd rn imm s
  | .eori rd rn imm => Sys2Proof.Machine.execEori rd rn imm s
  | .movz rd imm => Sys2Proof.Machine.execMovz rd imm s
  | .movk rd imm => Sys2Proof.Machine.execMovk rd imm s
  | .ldur rt rn imm => Sys2Proof.Machine.execLdur rt rn imm s
  | .stur rt rn imm => Sys2Proof.Machine.execStur rt rn imm s
  | .ldurw rt rn imm => Sys2Proof.Machine.execLdurw rt rn imm s
  | .sturw rt rn imm => Sys2Proof.Machine.execSturw rt rn imm s
  | .ldurb rt rn imm => Sys2Proof.Machine.execLdurb rt rn imm s
  | .sturb rt rn imm => Sys2Proof.Machine.execSturb rt rn imm s
  | .b target => Sys2Proof.Machine.execB target s
  | .bl target => Sys2Proof.Machine.execBl target s
  | .br rn => Sys2Proof.Machine.execBr rn s
  | .cbz rt target => Sys2Proof.Machine.execCbz rt target s
  | .cbnz rt target => Sys2Proof.Machine.execCbnz rt target s
  | .bEq target => Sys2Proof.Machine.execBEq target s
  | .bNe target => Sys2Proof.Machine.execBNe target s
  | .bLt target => Sys2Proof.Machine.execBLt target s
  | .bLe target => Sys2Proof.Machine.execBLe target s
  | .bGt target => Sys2Proof.Machine.execBGt target s
  | .bGe target => Sys2Proof.Machine.execBGe target s
  | .bLo target => Sys2Proof.Machine.execBLo target s
  | .bLs target => Sys2Proof.Machine.execBLs target s
  | .bHi target => Sys2Proof.Machine.execBHi target s
  | .bHs target => Sys2Proof.Machine.execBHs target s

end Sys2Proof.Machine
end

