-- ==== Sys2Proof/Machine/Fetch.lean ====
section
/-! DEFINITION. Instruction fetch from the program store (44_step_cycle R281 to R283), and loading it (80_host_interface R367). -/

namespace Sys2Proof.Machine

/-- What a fetch finds at the pc (44_step_cycle R281, orders 3 to 5). -/
inductive Fetched where
  | completed
  | noInstruction
  | word (w : InstrWord)
  deriving DecidableEq, Repr

/-- `pc = 4 * N` ends the run; a pc that is negative, above `4 * N` or no multiple of 4 holds no instruction; any other pc
selects `PROG[pc / 4]` (44_step_cycle R281 to R283). -/
def State.fetch (s : State) : Fetched :=
  if s.pc.toInt = 4 * s.prog.length then .completed
  else if s.pc.toInt < 0 ∨ 4 * s.prog.length < s.pc.toInt ∨ s.pc.toInt % 4 ≠ 0 then .noInstruction
  else match s.prog[(s.pc.toInt / 4).toNat]? with
    | some w => .word w
    | none => .noInstruction

/-- A step request at a pc that holds no instruction: only the latch changes (44_step_cycle R283, 60_exceptions R314). -/
def State.fetchFault (s : State) : State := s.latch .fetchFault 0

/-- A step request that executes nothing: the answer is given and nothing else is reported (44_step_cycle R281, orders 1
to 3). -/
def State.answer (s : State) (o : StepOutcome) : State :=
  { s with outcome := some o, regChanges := [], memChanges := [] }

/-- `load_program(P)`: refused during a run, that is after the first step request since reset, and for more than MAX_PROG
words (80_host_interface R367, 70_reset_and_hazards R345, 00_scope R11; notes/assumptions/9). -/
def State.loadProgram (s : State) (p : List InstrWord) : Option State :=
  if s.outcome = none ∧ p.length ≤ Config.maxProg then some { s with prog := p } else none

/-- A program with the word `w` at index `k`: the words before it stay, missing ones are 0 (an illegal word), the words after
it stay. -/
def placeWord (p : List InstrWord) (k : Nat) (w : InstrWord) : List InstrWord :=
  p.take k ++ List.replicate (k - p.length) 0 ++ w :: p.drop (k + 1)

/-- The machine with `w` where the next step fetches (notes/assumptions/11): the core running, and where the pc is no address
a program of at most MAX_PROG instructions can hold, the pc at 0. -/
def State.placeNext (s : State) (w : InstrWord) : State :=
  let pc := if s.pc.toInt % 4 = 0 ∧ 0 ≤ s.pc.toInt ∧ s.pc.toInt / 4 < Config.maxProg then s.pc else 0
  { s with
    fault := none
    halted := false
    pc := pc
    prog := placeWord s.prog (pc.toInt / 4).toNat w }

end Sys2Proof.Machine
end

