-- ==== Sys2Proof/Machine/Step.lean ====
section
/-! DEFINITION. One step request (44_step_cycle R281): its five outcomes, tested in the spec's order. -/

namespace Sys2Proof.Machine

/-- Execute what the decoder gave (44_step_cycle R285). -/
def execDecoded (d : Decoded) (s : State) : Host.Outcome State Fault Refusal :=
  match d with
  | .instr i => exec i s
  | .reservedCondition cond tidx => execReservedCondition cond tidx s
  | .illegal w => execIllegal w s

/-- One step request (44_step_cycle R281). Every answer is a next state; which of the five it is stands in `State.outcome`
(notes/assumptions/7). -/
def step (s : State) : Host.Outcome State Fault Refusal :=
  if s.fault.isSome then .next (s.answer .stopped)
  else if s.halted then .next (s.answer .refusedCpuHalted)
  else match s.fetch with
    | .completed => .next (s.answer .completed)
    | .noInstruction => .next s.fetchFault
    | .word w => execDecoded (decode w) s

/-- `s` with the instruction whose bits are `w` (those from `nbits` on zero) where the next step fetches
(notes/assumptions/11). -/
def State.withFetchWord (s : State) (nbits w : Nat) : State :=
  s.placeNext (BitVec.ofNat 32 (w % 2 ^ nbits))

end Sys2Proof.Machine
end

