-- ==== Sys2Proof/Machine/Assembler.lean ====
section
/-! DEFINITION. The assembler, `Parser.parse` (00_scope R3, 30_encoding R140 to R157): source text as a list of characters in,
the resolved instruction sequence with source line numbers out, or the aggregate of line-tagged errors. -/

namespace Sys2Proof.Machine

/-- The kinds of a line error (30_encoding R142, R145, R147 to R153; notes/assumptions/15, 17). -/
inductive LineError where
  | unknownMnemonic
  | wrongArity
  | invalidRegister
  | outOfRangeImmediate
  | malformedImmediate
  | malformedMemoryOperand
  | malformedTarget
  | duplicateLabel
  | undefinedLabel (label : Label)
  | programTooLong
  deriving DecidableEq, Repr

/-! ### Text (R141 to R144) -/

/-- White space (notes/assumptions/14). -/
def isWhite (c : Char) : Bool := c = ' ' || c = '\t' || c = '\r' || c = '\n'

/-- A letter or underscore (30_encoding R142; ASCII letters, notes/assumptions/14). -/
def isIdentStart (c : Char) : Bool := c.isAlpha || c = '_'

/-- A letter, digit or underscore (30_encoding R142). -/
def isIdentChar (c : Char) : Bool := isIdentStart c || c.isDigit

/-- An identifier (30_encoding R142). -/
def isIdentifier : List Char → Bool
  | [] => false
  | c :: rest => isIdentStart c && rest.all isIdentChar

/-- Trim white space at both ends (30_encoding R141). -/
def trim (t : List Char) : List Char := ((t.dropWhile isWhite).reverse.dropWhile isWhite).reverse

/-- Everything from the first `//` on is a comment (30_encoding R141). -/
def stripComment : List Char → List Char
  | [] => []
  | '/' :: '/' :: _ => []
  | c :: rest => c :: stripComment rest

/-- Put a character in front of the first piece. -/
def consHead (c : Char) : List (List Char) → List (List Char)
  | [] => [[c]]
  | piece :: rest => (c :: piece) :: rest

/-- Split at every `sep`. -/
def splitAtChar (sep : Char) : List Char → List (List Char)
  | [] => [[]]
  | c :: rest => if c = sep then [] :: splitAtChar sep rest else consHead c (splitAtChar sep rest)

/-- Split at the commas outside brackets (30_encoding R144; notes/assumptions/14 for unbalanced brackets). -/
def splitOperands (depth : Nat) : List Char → List (List Char)
  | [] => [[]]
  | c :: rest =>
    if c = ',' ∧ depth = 0 then [] :: splitOperands 0 rest
    else consHead c (splitOperands (if c = '[' then depth + 1 else if c = ']' then depth - 1 else depth) rest)

/-- The operand list of an instruction line, each operand trimmed (30_encoding R143). -/
def operandsOf (t : List Char) : List (List Char) :=
  if trim t = [] then [] else (splitOperands 0 (trim t)).map trim

/-! ### Operands (R147 to R150) -/

/-- The value of a hexadecimal digit; a decimal digit is one below 10. -/
def digitValue (c : Char) : Option Nat :=
  if c.isDigit then some (c.toNat - '0'.toNat)
  else if 'a' ≤ c ∧ c ≤ 'f' then some (c.toNat - 'a'.toNat + 10)
  else if 'A' ≤ c ∧ c ≤ 'F' then some (c.toNat - 'A'.toNat + 10)
  else none

/-- Read digits on top of the value `acc`; every character must be a digit of the base. -/
def digitsFrom (base acc : Nat) : List Char → Option Nat
  | [] => some acc
  | c :: rest =>
    match digitValue c with
    | some d => if d < base then digitsFrom base (acc * base + d) rest else none
    | none => none

/-- A number: one digit or more. -/
def numberOf (base : Nat) (t : List Char) : Option Nat := if t = [] then none else digitsFrom base 0 t

/-- A register name (30_encoding R147): `X0` to `X31` without leading zeros or an alias, in any case. -/
def registerOf (t : List Char) : Option RegIdx :=
  match t.map Char.toUpper with
  | ['X', 'Z', 'R'] => some 31
  | ['S', 'P'] => some 28
  | ['L', 'R'] => some 30
  | ['F', 'P'] => some 29
  | ['X', '0'] => some 0
  | 'X' :: '0' :: _ => none
  | 'X' :: digits =>
    match numberOf 10 digits with
    | some k => if k < 32 then some (BitVec.ofNat 5 k) else none
    | none => none
  | _ => none

/-- A register operand. -/
def registerOperand (t : List Char) : Except LineError RegIdx :=
  match registerOf t with
  | some r => .ok r
  | none => .error .invalidRegister

/-- The magnitude of an immediate, decimal or `0x` hexadecimal (30_encoding R148). -/
def magnitudeOf : List Char → Option Nat
  | '0' :: 'x' :: digits => numberOf 16 digits
  | digits => numberOf 10 digits

/-- The signed number of an immediate, after its `#` (30_encoding R148). -/
def signedOf : List Char → Option Int
  | '-' :: digits => (magnitudeOf digits).map fun k => -(k : Int)
  | digits => (magnitudeOf digits).map fun k => (k : Int)

/-- An immediate operand: `#` and a number in [-2048, 2047] (30_encoding R148). -/
def immediateOperand : List Char → Except LineError Imm
  | '#' :: t =>
    match signedOf t with
    | some z => if -2048 ≤ z ∧ z ≤ 2047 then .ok (BitVec.ofInt 12 z) else .error .outOfRangeImmediate
    | none => .error .malformedImmediate
  | _ => .error .malformedImmediate

/-- The inside of a memory operand, split at its commas: a register name and an immediate (30_encoding R149). -/
def memoryParts : List (List Char) → Except LineError (RegIdx × Imm)
  | [base, offset] =>
    match registerOf (trim base), immediateOperand (trim offset) with
    | some rn, .ok imm => .ok (rn, imm)
    | some _, .error .outOfRangeImmediate => .error .outOfRangeImmediate
    | _, _ => .error .malformedMemoryOperand
  | _ => .error .malformedMemoryOperand

/-- A memory operand `[Xn, #imm]` (30_encoding R149). -/
def memoryOperand : List Char → Except LineError (RegIdx × Imm)
  | '[' :: t =>
    if t.getLast? = some ']' then memoryParts (splitAtChar ',' t.dropLast) else .error .malformedMemoryOperand
  | _ => .error .malformedMemoryOperand

/-- A branch target operand: a label, not yet resolved (30_encoding R112, R150). -/
def targetOperand (w : Nat) (t : List Char) : Except LineError (Target w) :=
  if isIdentifier t then .ok (.unresolved t) else .error .malformedTarget

/-! ### Instruction lines (R143, R145, R146) -/

/-- `OP Xd, Xn, Xm`. -/
def parseR (f : RegIdx → RegIdx → RegIdx → Instr) : List (List Char) → Except LineError Instr
  | [d, n, m] => do return f (← registerOperand d) (← registerOperand n) (← registerOperand m)
  | _ => .error .wrongArity

/-- `OP Xd, Xn, #imm`. -/
def parseI (f : RegIdx → RegIdx → Imm → Instr) : List (List Char) → Except LineError Instr
  | [d, n, k] => do return f (← registerOperand d) (← registerOperand n) (← immediateOperand k)
  | _ => .error .wrongArity

/-- `OP Xd, #imm`. -/
def parseIM (f : RegIdx → Imm → Instr) : List (List Char) → Except LineError Instr
  | [d, k] => do return f (← registerOperand d) (← immediateOperand k)
  | _ => .error .wrongArity

/-- `OP Xt, [Xn, #imm]`. -/
def parseD (f : RegIdx → RegIdx → Imm → Instr) : List (List Char) → Except LineError Instr
  | [t, m] => do
    let rt ← registerOperand t
    let (rn, imm) ← memoryOperand m
    return f rt rn imm
  | _ => .error .wrongArity

/-- `OP label`. -/
def parseTarget {w : Nat} (f : Target w → Instr) : List (List Char) → Except LineError Instr
  | [l] => do return f (← targetOperand w l)
  | _ => .error .wrongArity

/-- `BR Xn`. -/
def parseBR : List (List Char) → Except LineError Instr
  | [n] => do return .br (← registerOperand n)
  | _ => .error .wrongArity

/-- `OP Xt, label`. -/
def parseCB (f : RegIdx → Target 19 → Instr) : List (List Char) → Except LineError Instr
  | [t, l] => do return f (← registerOperand t) (← targetOperand 19 l)
  | _ => .error .wrongArity

/-- The operands of each mnemonic, in upper case (30_encoding R145). Another mnemonic is an error, another `B.xx` too. -/
def parseOperands (mnemonic : List Char) (ops : List (List Char)) : Except LineError Instr :=
  if mnemonic = ['A', 'D', 'D'] then parseR .add ops
  else if mnemonic = ['S', 'U', 'B'] then parseR .sub ops
  else if mnemonic = ['A', 'D', 'D', 'S'] then parseR .adds ops
  else if mnemonic = ['S', 'U', 'B', 'S'] then parseR .subs ops
  else if mnemonic = ['A', 'N', 'D'] then parseR .and ops
  else if mnemonic = ['O', 'R', 'R'] then parseR .orr ops
  else if mnemonic = ['E', 'O', 'R'] then parseR .eor ops
  else if mnemonic = ['M', 'U', 'L'] then parseR .mul ops
  else if mnemonic = ['L', 'S', 'L'] then parseR .lsl ops
  else if mnemonic = ['L', 'S', 'R'] then parseR .lsr ops
  else if mnemonic = ['A', 'D', 'D', 'I'] then parseI .addi ops
  else if mnemonic = ['S', 'U', 'B', 'I'] then parseI .subi ops
  else if mnemonic = ['A', 'D', 'D', 'I', 'S'] then parseI .addis ops
  else if mnemonic = ['S', 'U', 'B', 'I', 'S'] then parseI .subis ops
  else if mnemonic = ['A', 'N', 'D', 'I'] then parseI .andi ops
  else if mnemonic = ['O', 'R', 'R', 'I'] then parseI .orri ops
  else if mnemonic = ['E', 'O', 'R', 'I'] then parseI .eori ops
  else if mnemonic = ['M', 'O', 'V', 'Z'] then parseIM .movz ops
  else if mnemonic = ['M', 'O', 'V', 'K'] then parseIM .movk ops
  else if mnemonic = ['L', 'D', 'U', 'R'] then parseD .ldur ops
  else if mnemonic = ['S', 'T', 'U', 'R'] then parseD .stur ops
  else if mnemonic = ['L', 'D', 'U', 'R', 'W'] then parseD .ldurw ops
  else if mnemonic = ['S', 'T', 'U', 'R', 'W'] then parseD .sturw ops
  else if mnemonic = ['L', 'D', 'U', 'R', 'B'] then parseD .ldurb ops
  else if mnemonic = ['S', 'T', 'U', 'R', 'B'] then parseD .sturb ops
  else if mnemonic = ['B'] then parseTarget .b ops
  else if mnemonic = ['B', 'L'] then parseTarget .bl ops
  else if mnemonic = ['B', 'R'] then parseBR ops
  else if mnemonic = ['C', 'B', 'Z'] then parseCB .cbz ops
  else if mnemonic = ['C', 'B', 'N', 'Z'] then parseCB .cbnz ops
  else if mnemonic = ['B', '.', 'E', 'Q'] then parseTarget .bEq ops
  else if mnemonic = ['B', '.', 'N', 'E'] then parseTarget .bNe ops
  else if mnemonic = ['B', '.', 'L', 'T'] then parseTarget .bLt ops
  else if mnemonic = ['B', '.', 'L', 'E'] then parseTarget .bLe ops
  else if mnemonic = ['B', '.', 'G', 'T'] then parseTarget .bGt ops
  else if mnemonic = ['B', '.', 'G', 'E'] then parseTarget .bGe ops
  else if mnemonic = ['B', '.', 'L', 'O'] then parseTarget .bLo ops
  else if mnemonic = ['B', '.', 'L', 'S'] then parseTarget .bLs ops
  else if mnemonic = ['B', '.', 'H', 'I'] then parseTarget .bHi ops
  else if mnemonic = ['B', '.', 'H', 'S'] then parseTarget .bHs ops
  else .error .unknownMnemonic

/-- An instruction line, trimmed: the first token is the mnemonic, in any case, the rest the operands (30_encoding R143). -/
def parseInstruction (line : List Char) : Except LineError Instr :=
  parseOperands ((line.takeWhile (!isWhite ·)).map Char.toUpper) (operandsOf (line.dropWhile (!isWhite ·)))

/-! ### Pass 1 (R140 to R142, R151) -/

/-- What pass 1 has made so far: the instructions with their line numbers, the label table, the line errors. -/
structure Pass1 where
  program : List (Nat × Instr)
  labels : List (Label × Nat)
  errors : List (Nat × LineError)
  deriving DecidableEq, Repr

/-- The index a label stands for (30_encoding R142). -/
def lookupLabel (labels : List (Label × Nat)) (l : Label) : Option Nat := List.lookup l labels

/-- A label definition `identifier:` gives the label the index of the next instruction; defining it again is an error
(30_encoding R142). -/
def Pass1.define (p : Pass1) (n : Nat) (l : Label) : Pass1 :=
  match lookupLabel p.labels l with
  | some _ => { p with errors := p.errors ++ [(n, .duplicateLabel)] }
  | none => { p with labels := p.labels ++ [(l, p.program.length)] }

/-- Line `n` (30_encoding R141 to R143, R151): nothing, a label, or an instruction; a line with an error makes none. -/
def Pass1.line (p : Pass1) (n : Nat) (raw : List Char) : Pass1 :=
  let t := trim (stripComment raw)
  if t = [] then p
  else if t.getLast? = some ':' ∧ isIdentifier t.dropLast then p.define n t.dropLast
  else match parseInstruction t with
    | .ok i => { p with program := p.program ++ [(n, i)] }
    | .error e => { p with errors := p.errors ++ [(n, e)] }

/-- The lines from number `n` on (30_encoding R141). -/
def Pass1.lines (p : Pass1) (n : Nat) : List (List Char) → Pass1
  | [] => p
  | raw :: rest => Pass1.lines (p.line n raw) (n + 1) rest

/-- Pass 1 over a source text; lines are numbered from 1 (30_encoding R140, R141). -/
def pass1 (source : List Char) : Pass1 := Pass1.lines ⟨[], [], []⟩ 1 (splitAtChar '\n' source)

/-! ### Pass 2 (R152, R153) and the result (R154, R155) -/

/-- Resolve a target to its label's instruction index, whose byte address is 4 times as much (30_encoding R152). -/
def resolveTarget {w : Nat} (labels : List (Label × Nat)) : Target w → Except LineError (Target w)
  | .resolved tidx => .ok (.resolved tidx)
  | .unresolved l =>
    match lookupLabel labels l with
    | some k => .ok (.resolved (BitVec.ofNat w k))
    | none => .error (.undefinedLabel l)

/-- Resolve the target of a branch; other instructions have none (30_encoding R152). -/
def resolveInstr (labels : List (Label × Nat)) : Instr → Except LineError Instr
  | .add rd rn rm => .ok (.add rd rn rm)
  | .sub rd rn rm => .ok (.sub rd rn rm)
  | .adds rd rn rm => .ok (.adds rd rn rm)
  | .subs rd rn rm => .ok (.subs rd rn rm)
  | .and rd rn rm => .ok (.and rd rn rm)
  | .orr rd rn rm => .ok (.orr rd rn rm)
  | .eor rd rn rm => .ok (.eor rd rn rm)
  | .mul rd rn rm => .ok (.mul rd rn rm)
  | .lsl rd rn rm => .ok (.lsl rd rn rm)
  | .lsr rd rn rm => .ok (.lsr rd rn rm)
  | .addi rd rn imm => .ok (.addi rd rn imm)
  | .subi rd rn imm => .ok (.subi rd rn imm)
  | .addis rd rn imm => .ok (.addis rd rn imm)
  | .subis rd rn imm => .ok (.subis rd rn imm)
  | .andi rd rn imm => .ok (.andi rd rn imm)
  | .orri rd rn imm => .ok (.orri rd rn imm)
  | .eori rd rn imm => .ok (.eori rd rn imm)
  | .movz rd imm => .ok (.movz rd imm)
  | .movk rd imm => .ok (.movk rd imm)
  | .ldur rt rn imm => .ok (.ldur rt rn imm)
  | .stur rt rn imm => .ok (.stur rt rn imm)
  | .ldurw rt rn imm => .ok (.ldurw rt rn imm)
  | .sturw rt rn imm => .ok (.sturw rt rn imm)
  | .ldurb rt rn imm => .ok (.ldurb rt rn imm)
  | .sturb rt rn imm => .ok (.sturb rt rn imm)
  | .b t => (resolveTarget labels t).map .b
  | .bl t => (resolveTarget labels t).map .bl
  | .br rn => .ok (.br rn)
  | .cbz rt t => (resolveTarget labels t).map (.cbz rt)
  | .cbnz rt t => (resolveTarget labels t).map (.cbnz rt)
  | .bEq t => (resolveTarget labels t).map .bEq
  | .bNe t => (resolveTarget labels t).map .bNe
  | .bLt t => (resolveTarget labels t).map .bLt
  | .bLe t => (resolveTarget labels t).map .bLe
  | .bGt t => (resolveTarget labels t).map .bGt
  | .bGe t => (resolveTarget labels t).map .bGe
  | .bLo t => (resolveTarget labels t).map .bLo
  | .bLs t => (resolveTarget labels t).map .bLs
  | .bHi t => (resolveTarget labels t).map .bHi
  | .bHs t => (resolveTarget labels t).map .bHs

/-- The resolved program, and the errors of pass 2 (30_encoding R152, R153). -/
def pass2 (labels : List (Label × Nat)) : List (Nat × Instr) → List (Nat × Instr) × List (Nat × LineError)
  | [] => ([], [])
  | (n, i) :: rest =>
    match resolveInstr labels i with
    | .ok j => ((n, j) :: (pass2 labels rest).1, (pass2 labels rest).2)
    | .error e => ((pass2 labels rest).1, (n, e) :: (pass2 labels rest).2)

/-- A program of more than MAX_PROG instructions is refused, at the line of the first one too many
(30_encoding R154; notes/assumptions/17). -/
def lengthErrors (program : List (Nat × Instr)) : List (Nat × LineError) :=
  ((program.drop Config.maxProg).take 1).map fun p => (p.1, .programTooLong)

/-- `Parser.parse` (30_encoding R140): the resolved program with source line numbers, or the aggregate `ParseError`
(R151, R153, R155). Whether pass 2 adds its errors to a failed pass 1 is free (notes/assumptions/16). DESIGN CHOICE: the
program-too-long error follows the errors of pass 2 where pass 1 has none, and is left out where pass 1 failed
(30_encoding R154 says only that such a program is refused; notes/assumptions/17). -/
def parse (source : List Char) : Except (List (Nat × LineError)) (List (Nat × Instr)) :=
  let p := pass1 source
  let q := pass2 p.labels p.program
  if p.errors = [] then
    if q.2 ++ lengthErrors p.program = [] then .ok q.1 else .error (q.2 ++ lengthErrors p.program)
  else .error (p.errors ++ if Config.pass2AfterFailedPass1 then q.2 else [])

/-- The words of a program (30_encoding R139); a parsed program has one for each instruction. -/
def wordsOfProgram (program : List (Nat × Instr)) : List InstrWord := program.filterMap fun p => encode p.2

/-- Assemble a source text into the words of the program store (30_encoding R154). -/
def assemble (source : List Char) : Except (List (Nat × LineError)) (List InstrWord) :=
  (parse source).map wordsOfProgram

end Sys2Proof.Machine
end

