-- ==== Sys2Proof/Machine/HostInterface.lean ====
section
/-! DEFINITION. The host's requests to the core and their answers (80_host_interface R360 to R367), the run-all loop (R368), the
construction of a core (70_reset_and_hazards R342) and the output ports (R371). -/

namespace Sys2Proof.Machine

/-- Construction with a capacity: the reset state; a capacity that is no configuration of this core is refused
(70_reset_and_hazards R342, 00_scope R9, U4). -/
def construct (cap : Nat) : Option State :=
  if Config.legalMemCap cap then some { State.reset with memCap := cap } else none

/-- `halt`: sets the halted flag and nothing else (80_host_interface R366). -/
def State.halt (s : State) : State := { s with halted := true }

/-- What `get_state` returns (80_host_interface R362). -/
structure Snapshot where
  pc : Word
  regs : List Word
  instrCount : Nat
  cycleCount : Nat
  halted : Bool
  flags : Flags
  lastInstr : Option Decoded
  fault : Option FaultRecord
  deriving DecidableEq, Repr

/-- `get_state`, with `x[31]` as 0 (80_host_interface R362). -/
def State.getState (s : State) : Snapshot where
  pc := s.pc
  regs := (List.range 32).map fun k => s.x (BitVec.ofNat 5 k)
  instrCount := s.instrCount
  cycleCount := s.cycleCount
  halted := s.halted
  flags := s.flags
  lastInstr := s.lastInstr
  fault := s.fault

/-- What a step that executes an instruction reports (80_host_interface R363). -/
structure StepResult where
  pc : Word
  instrCount : Nat
  cycleCount : Nat
  regChanges : List RegIdx
  memChanges : List MemEvent
  deriving DecidableEq, Repr

/-- The `StepResult` of the step that led to this state (80_host_interface R363, 44_step_cycle R285). -/
def State.stepResult (s : State) : StepResult where
  pc := s.pc
  instrCount := s.instrCount
  cycleCount := s.cycleCount
  regChanges := s.regChanges
  memChanges := s.memChanges

/-- The host's requests (80_host_interface R360). Reading a byte of data memory between steps is R362's last sentence. -/
inductive Request where
  | step
  | getState
  | readByte (addr : Nat)
  | reset
  | halt
  | loadProgram (p : List InstrWord)
  deriving DecidableEq, Repr

/-- The core's answers: the five of a step (80_host_interface R361), a snapshot, a byte or its absence, an acknowledgement, a
refused load. -/
inductive Answer where
  | ok (r : StepResult)
  | fault (code : FaultCode)
  | refusedCpuHalted
  | completed
  | stopped
  | snapshot (g : Snapshot)
  | byte (b : Option Byte)
  | done
  | loadRefused
  deriving DecidableEq, Repr

/-- The answer to the step request that led to this state. -/
def State.stepAnswer (s : State) : Option Answer :=
  match s.outcome with
  | none => none
  | some .ok => some (.ok s.stepResult)
  | some (.fault code) => some (.fault code)
  | some .refusedCpuHalted => some .refusedCpuHalted
  | some .completed => some .completed
  | some .stopped => some .stopped

/-- One request of the host, handled between steps: the state after it, and its answer (80_host_interface R360 to R367).
`step` always answers a next state, so the first case's other outcomes do not arise. -/
def serve (r : Request) (s : State) : State × Option Answer :=
  match r with
  | .step =>
    match step s with
    | .next t => (t, t.stepAnswer)
    | .fault _ => (s, none)
    | .refused _ => (s, none)
  | .getState => (s, some (.snapshot s.getState))
  | .readByte a => (s, some (.byte (if a < s.memCap then some (s.mem.byte a) else none)))
  | .reset => (s.hostReset, some .done)
  | .halt => (s.halt, some .done)
  | .loadProgram p =>
    match s.loadProgram p with
    | some t => (t, some .done)
    | none => (s, some .loadRefused)

/-- The run-all loop: step until an outcome other than Ok, or until `maxSteps` outcomes Ok (80_host_interface R368). The bound
changes nothing in the core. -/
def runAll : Nat → State → State
  | 0, s => s
  | maxSteps + 1, s =>
    match step s with
    | .next t => if t.outcome = some .ok then runAll maxSteps t else t
    | .fault _ => s
    | .refused _ => s

/-- The output ports of the core, drawn as hardware (80_host_interface R371). -/
structure Ports where
  outcome : Option StepOutcome
  faultCode : BitVec 4
  faultPc : BitVec 64
  faultAddr : BitVec 66
  pc : BitVec 64
  nzcv : BitVec 4
  halted : Bool
  instrCount : Nat
  cycleCount : Nat
  deriving DecidableEq, Repr

/-- The values at the ports: fault code 0 and zeros where no fault is latched (60_exceptions R301, 80_host_interface R371).
N is the high bit of `nzcv`, then Z, C, V, the order of the port's name. -/
def State.ports (s : State) : Ports where
  outcome := s.outcome
  faultCode := BitVec.ofNat 4 (match s.fault with | some f => f.code.number | none => 0)
  faultPc := match s.fault with | some f => f.pc | none => 0
  faultAddr := BitVec.ofInt 66 (match s.fault with | some f => f.addr | none => 0)
  pc := s.pc
  nzcv := BitVec.ofBool s.flags.n ++ BitVec.ofBool s.flags.z ++ BitVec.ofBool s.flags.c ++ BitVec.ofBool s.flags.v
  halted := s.halted
  instrCount := s.instrCount
  cycleCount := s.cycleCount

end Sys2Proof.Machine
end

