-- ==== Sys2Proof/Safety.lean ====
section
/-! DEFINITION. What counts as a safe state and a safe run, the invariant of the machine, and the words the statements use
for what an instruction leaves around its own effect. -/

namespace Sys2Proof.Machine

/-- No fault is latched: the run has not gone wrong (60_exceptions R300). -/
abbrev State.safe (s : State) : Prop := s.fault = none

/-- The run is completed: no fault, not halted, and the pc just after the last instruction (44_step_cycle R282). -/
abbrev State.runCompleted (s : State) : Prop :=
  s.fault = none ∧ s.halted = false ∧ s.pc.toInt = 4 * s.prog.length

/-- The parameters of the step relation are ones of this core (00_scope R9, R11). -/
abbrev State.legalParams (s : State) : Prop :=
  Config.legalMemCap s.memCap = true ∧ s.prog.length ≤ Config.maxProg

/-- The flag half of 10_state R54: V and C are false, and N and Z are not both true. -/
abbrev State.flagsInv (s : State) : Prop :=
  s.flags.v = false ∧ s.flags.c = false ∧ (s.flags.n && s.flags.z) = false

/-- The memory is in canonical form and inside the capacity (10_state R49). -/
abbrev State.memInv (s : State) : Prop := s.mem.wf ∧ s.mem.within s.memCap

/-- The invariant of the states reachable from reset (10_state R54), with what the model adds: legal parameters and the
canonical form of memory. -/
abbrev State.Inv (s : State) : Prop :=
  s.legalParams ∧ s.memInv ∧ s.flagsInv ∧ (s.fault = none → s.cycleCount = s.instrCount)

/-! ### The spec's own arithmetic and word formats, for the statements -/

/-- `wrap64`, the formula of 00_scope R16. -/
def specWrap64 (z : Int) : Int := (z + 2 ^ 63) % 2 ^ 64 - 2 ^ 63

/-- `wrap32`, the formula of 00_scope R16. -/
def specWrap32 (z : Int) : Int := (z + 2 ^ 31) % 2 ^ 32 - 2 ^ 31

/-- The unsigned little-endian value of the `n` bytes from `a` up, the sum of 20_memory R77. -/
def littleEndian (m : Memory) (a n : Nat) : Nat :=
  ((List.range n).map fun k => (m.byte (a + k)).toNat * 2 ^ (8 * k)).sum

/-- R-format (30_encoding R121): 31:24 opcode, 23:21 000, 20:16 rm, 15:10 000000, 9:5 rn, 4:0 rd. -/
def rWord (op : BitVec 8) (rm rn rd : RegIdx) : InstrWord := op ++ 0#3 ++ rm ++ 0#6 ++ rn ++ rd

/-- I-format and D-format (30_encoding R122, R124): 31:24 opcode, 23:22 00, 21:10 imm12, 9:5 rn, 4:0 rd or rt. The IM-format
(R123) is this with `rn` 31. -/
def iWord (op : BitVec 8) (imm : Imm) (rn rd : RegIdx) : InstrWord := op ++ 0#2 ++ imm ++ rn ++ rd

/-- B-format (30_encoding R125): 31:24 opcode, 23:0 tidx24. -/
def bWord (op : BitVec 8) (tidx : BitVec 24) : InstrWord := op ++ tidx

/-- BR-format (30_encoding R126): 31:24 opcode, 23:10 zeros, 9:5 rn, 4:0 zeros. -/
def brWord (op : BitVec 8) (rn : RegIdx) : InstrWord := op ++ 0#14 ++ rn ++ 0#5

/-- CB-format (30_encoding R127): 31:24 opcode, 23:5 tidx19, 4:0 rt. -/
def cbWord (op : BitVec 8) (tidx : BitVec 19) (rt : RegIdx) : InstrWord := op ++ tidx ++ rt

/-- CC-format (30_encoding R128): 31:24 opcode, 23:5 tidx19, 4 zero, 3:0 cond. -/
def ccWord (op : BitVec 8) (tidx : BitVec 19) (cond : BitVec 4) : InstrWord := op ++ tidx ++ 0#1 ++ cond

/-- The opcode number of an instruction (30_encoding R129). -/
def opcodeNumber : Instr → Nat
  | .add _ _ _ => 0x01
  | .sub _ _ _ => 0x02
  | .adds _ _ _ => 0x03
  | .subs _ _ _ => 0x04
  | .and _ _ _ => 0x05
  | .orr _ _ _ => 0x06
  | .eor _ _ _ => 0x07
  | .mul _ _ _ => 0x08
  | .lsl _ _ _ => 0x09
  | .lsr _ _ _ => 0x0A
  | .addi _ _ _ => 0x11
  | .subi _ _ _ => 0x12
  | .addis _ _ _ => 0x13
  | .subis _ _ _ => 0x14
  | .andi _ _ _ => 0x15
  | .orri _ _ _ => 0x16
  | .eori _ _ _ => 0x17
  | .movz _ _ => 0x18
  | .movk _ _ => 0x19
  | .ldur _ _ _ => 0x21
  | .stur _ _ _ => 0x22
  | .ldurw _ _ _ => 0x23
  | .sturw _ _ _ => 0x24
  | .ldurb _ _ _ => 0x25
  | .sturb _ _ _ => 0x26
  | .b _ => 0x31
  | .bl _ => 0x32
  | .br _ => 0x33
  | .cbz _ _ => 0x34
  | .cbnz _ _ => 0x35
  | .bEq _ => 0x36
  | .bNe _ => 0x36
  | .bLt _ => 0x36
  | .bLe _ => 0x36
  | .bGt _ => 0x36
  | .bGe _ => 0x36
  | .bLo _ => 0x36
  | .bLs _ => 0x36
  | .bHi _ => 0x36
  | .bHs _ => 0x36

/-- The instruction index a target holds; an unresolved one holds none, and 0 stands there. -/
def targetIndex {w : Nat} : Target w → Nat
  | .resolved tidx => tidx.toNat
  | .unresolved _ => 0

/-- The operand bits of an instruction's word as a number, by the formula of 30_encoding R139. -/
def operandNumber : Instr → Nat
  | .add rd rn rm => rm.toNat * 2 ^ 16 + rn.toNat * 2 ^ 5 + rd.toNat
  | .sub rd rn rm => rm.toNat * 2 ^ 16 + rn.toNat * 2 ^ 5 + rd.toNat
  | .adds rd rn rm => rm.toNat * 2 ^ 16 + rn.toNat * 2 ^ 5 + rd.toNat
  | .subs rd rn rm => rm.toNat * 2 ^ 16 + rn.toNat * 2 ^ 5 + rd.toNat
  | .and rd rn rm => rm.toNat * 2 ^ 16 + rn.toNat * 2 ^ 5 + rd.toNat
  | .orr rd rn rm => rm.toNat * 2 ^ 16 + rn.toNat * 2 ^ 5 + rd.toNat
  | .eor rd rn rm => rm.toNat * 2 ^ 16 + rn.toNat * 2 ^ 5 + rd.toNat
  | .mul rd rn rm => rm.toNat * 2 ^ 16 + rn.toNat * 2 ^ 5 + rd.toNat
  | .lsl rd rn rm => rm.toNat * 2 ^ 16 + rn.toNat * 2 ^ 5 + rd.toNat
  | .lsr rd rn rm => rm.toNat * 2 ^ 16 + rn.toNat * 2 ^ 5 + rd.toNat
  | .addi rd rn imm => (imm.toInt % 4096).toNat * 2 ^ 10 + rn.toNat * 2 ^ 5 + rd.toNat
  | .subi rd rn imm => (imm.toInt % 4096).toNat * 2 ^ 10 + rn.toNat * 2 ^ 5 + rd.toNat
  | .addis rd rn imm => (imm.toInt % 4096).toNat * 2 ^ 10 + rn.toNat * 2 ^ 5 + rd.toNat
  | .subis rd rn imm => (imm.toInt % 4096).toNat * 2 ^ 10 + rn.toNat * 2 ^ 5 + rd.toNat
  | .andi rd rn imm => (imm.toInt % 4096).toNat * 2 ^ 10 + rn.toNat * 2 ^ 5 + rd.toNat
  | .orri rd rn imm => (imm.toInt % 4096).toNat * 2 ^ 10 + rn.toNat * 2 ^ 5 + rd.toNat
  | .eori rd rn imm => (imm.toInt % 4096).toNat * 2 ^ 10 + rn.toNat * 2 ^ 5 + rd.toNat
  | .movz rd imm => (imm.toInt % 4096).toNat * 2 ^ 10 + 31 * 2 ^ 5 + rd.toNat
  | .movk rd imm => (imm.toInt % 4096).toNat * 2 ^ 10 + 31 * 2 ^ 5 + rd.toNat
  | .ldur rt rn imm => (imm.toInt % 4096).toNat * 2 ^ 10 + rn.toNat * 2 ^ 5 + rt.toNat
  | .stur rt rn imm => (imm.toInt % 4096).toNat * 2 ^ 10 + rn.toNat * 2 ^ 5 + rt.toNat
  | .ldurw rt rn imm => (imm.toInt % 4096).toNat * 2 ^ 10 + rn.toNat * 2 ^ 5 + rt.toNat
  | .sturw rt rn imm => (imm.toInt % 4096).toNat * 2 ^ 10 + rn.toNat * 2 ^ 5 + rt.toNat
  | .ldurb rt rn imm => (imm.toInt % 4096).toNat * 2 ^ 10 + rn.toNat * 2 ^ 5 + rt.toNat
  | .sturb rt rn imm => (imm.toInt % 4096).toNat * 2 ^ 10 + rn.toNat * 2 ^ 5 + rt.toNat
  | .b t => targetIndex t
  | .bl t => targetIndex t
  | .br rn => rn.toNat * 2 ^ 5
  | .cbz rt t => targetIndex t * 2 ^ 5 + rt.toNat
  | .cbnz rt t => targetIndex t * 2 ^ 5 + rt.toNat
  | .bEq t => targetIndex t * 2 ^ 5 + 0
  | .bNe t => targetIndex t * 2 ^ 5 + 1
  | .bLt t => targetIndex t * 2 ^ 5 + 2
  | .bLe t => targetIndex t * 2 ^ 5 + 3
  | .bGt t => targetIndex t * 2 ^ 5 + 4
  | .bGe t => targetIndex t * 2 ^ 5 + 5
  | .bLo t => targetIndex t * 2 ^ 5 + 6
  | .bLs t => targetIndex t * 2 ^ 5 + 7
  | .bHi t => targetIndex t * 2 ^ 5 + 8
  | .bHs t => targetIndex t * 2 ^ 5 + 9

/-! ### What an instruction reads, writes and holds -/

/-- The register an instruction writes (10_state R36). -/
def destination : Instr → Option RegIdx
  | .add rd _ _ => some rd
  | .sub rd _ _ => some rd
  | .adds rd _ _ => some rd
  | .subs rd _ _ => some rd
  | .and rd _ _ => some rd
  | .orr rd _ _ => some rd
  | .eor rd _ _ => some rd
  | .mul rd _ _ => some rd
  | .lsl rd _ _ => some rd
  | .lsr rd _ _ => some rd
  | .addi rd _ _ => some rd
  | .subi rd _ _ => some rd
  | .addis rd _ _ => some rd
  | .subis rd _ _ => some rd
  | .andi rd _ _ => some rd
  | .orri rd _ _ => some rd
  | .eori rd _ _ => some rd
  | .movz rd _ => some rd
  | .movk rd _ => some rd
  | .ldur rt _ _ => some rt
  | .ldurw rt _ _ => some rt
  | .ldurb rt _ _ => some rt
  | .stur _ _ _ => none
  | .sturw _ _ _ => none
  | .sturb _ _ _ => none
  | .b _ => none
  | .bl _ => some 30
  | .br _ => none
  | .cbz _ _ => none
  | .cbnz _ _ => none
  | .bEq _ => none
  | .bNe _ => none
  | .bLt _ => none
  | .bLe _ => none
  | .bGt _ => none
  | .bGe _ => none
  | .bLo _ => none
  | .bLs _ => none
  | .bHi _ => none
  | .bHs _ => none

/-- The registers an instruction reads (10_state R36). -/
def sources : Instr → List RegIdx
  | .add _ rn rm => [rn, rm]
  | .sub _ rn rm => [rn, rm]
  | .adds _ rn rm => [rn, rm]
  | .subs _ rn rm => [rn, rm]
  | .and _ rn rm => [rn, rm]
  | .orr _ rn rm => [rn, rm]
  | .eor _ rn rm => [rn, rm]
  | .mul _ rn rm => [rn, rm]
  | .lsl _ rn rm => [rn, rm]
  | .lsr _ rn rm => [rn, rm]
  | .addi _ rn _ => [rn]
  | .subi _ rn _ => [rn]
  | .addis _ rn _ => [rn]
  | .subis _ rn _ => [rn]
  | .andi _ rn _ => [rn]
  | .orri _ rn _ => [rn]
  | .eori _ rn _ => [rn]
  | .movz _ _ => []
  | .movk rd _ => [rd]
  | .ldur _ rn _ => [rn]
  | .ldurw _ rn _ => [rn]
  | .ldurb _ rn _ => [rn]
  | .stur rt rn _ => [rn, rt]
  | .sturw rt rn _ => [rn, rt]
  | .sturb rt rn _ => [rn, rt]
  | .b _ => []
  | .bl _ => []
  | .br rn => [rn]
  | .cbz rt _ => [rt]
  | .cbnz rt _ => [rt]
  | .bEq _ => []
  | .bNe _ => []
  | .bLt _ => []
  | .bLe _ => []
  | .bGt _ => []
  | .bGe _ => []
  | .bLo _ => []
  | .bLs _ => []
  | .bHi _ => []
  | .bHs _ => []

/-- ADDS, SUBS, ADDIS, SUBIS: the flag-setting instructions (00_scope R22, 10_state R41). -/
def isFlagSetting : Instr → Bool
  | .add _ _ _ => false
  | .sub _ _ _ => false
  | .adds _ _ _ => true
  | .subs _ _ _ => true
  | .and _ _ _ => false
  | .orr _ _ _ => false
  | .eor _ _ _ => false
  | .mul _ _ _ => false
  | .lsl _ _ _ => false
  | .lsr _ _ _ => false
  | .addi _ _ _ => false
  | .subi _ _ _ => false
  | .addis _ _ _ => true
  | .subis _ _ _ => true
  | .andi _ _ _ => false
  | .orri _ _ _ => false
  | .eori _ _ _ => false
  | .movz _ _ => false
  | .movk _ _ => false
  | .ldur _ _ _ => false
  | .stur _ _ _ => false
  | .ldurw _ _ _ => false
  | .sturw _ _ _ => false
  | .ldurb _ _ _ => false
  | .sturb _ _ _ => false
  | .b _ => false
  | .bl _ => false
  | .br _ => false
  | .cbz _ _ => false
  | .cbnz _ _ => false
  | .bEq _ => false
  | .bNe _ => false
  | .bLt _ => false
  | .bLe _ => false
  | .bGt _ => false
  | .bGe _ => false
  | .bLo _ => false
  | .bLs _ => false
  | .bHi _ => false
  | .bHs _ => false

/-- B.EQ to B.HS: the instructions that read the flags (10_state R42). -/
def isCondB : Instr → Bool
  | .add _ _ _ => false
  | .sub _ _ _ => false
  | .adds _ _ _ => false
  | .subs _ _ _ => false
  | .and _ _ _ => false
  | .orr _ _ _ => false
  | .eor _ _ _ => false
  | .mul _ _ _ => false
  | .lsl _ _ _ => false
  | .lsr _ _ _ => false
  | .addi _ _ _ => false
  | .subi _ _ _ => false
  | .addis _ _ _ => false
  | .subis _ _ _ => false
  | .andi _ _ _ => false
  | .orri _ _ _ => false
  | .eori _ _ _ => false
  | .movz _ _ => false
  | .movk _ _ => false
  | .ldur _ _ _ => false
  | .stur _ _ _ => false
  | .ldurw _ _ _ => false
  | .sturw _ _ _ => false
  | .ldurb _ _ _ => false
  | .sturb _ _ _ => false
  | .b _ => false
  | .bl _ => false
  | .br _ => false
  | .cbz _ _ => false
  | .cbnz _ _ => false
  | .bEq _ => true
  | .bNe _ => true
  | .bLt _ => true
  | .bLe _ => true
  | .bGt _ => true
  | .bGe _ => true
  | .bLo _ => true
  | .bLs _ => true
  | .bHi _ => true
  | .bHs _ => true

/-- STUR, STURW, STURB. -/
def isStore : Instr → Bool
  | .add _ _ _ => false
  | .sub _ _ _ => false
  | .adds _ _ _ => false
  | .subs _ _ _ => false
  | .and _ _ _ => false
  | .orr _ _ _ => false
  | .eor _ _ _ => false
  | .mul _ _ _ => false
  | .lsl _ _ _ => false
  | .lsr _ _ _ => false
  | .addi _ _ _ => false
  | .subi _ _ _ => false
  | .addis _ _ _ => false
  | .subis _ _ _ => false
  | .andi _ _ _ => false
  | .orri _ _ _ => false
  | .eori _ _ _ => false
  | .movz _ _ => false
  | .movk _ _ => false
  | .ldur _ _ _ => false
  | .stur _ _ _ => true
  | .ldurw _ _ _ => false
  | .sturw _ _ _ => true
  | .ldurb _ _ _ => false
  | .sturb _ _ _ => true
  | .b _ => false
  | .bl _ => false
  | .br _ => false
  | .cbz _ _ => false
  | .cbnz _ _ => false
  | .bEq _ => false
  | .bNe _ => false
  | .bLt _ => false
  | .bLe _ => false
  | .bGt _ => false
  | .bGe _ => false
  | .bLo _ => false
  | .bLs _ => false
  | .bHi _ => false
  | .bHs _ => false

/-- The instruction's branch target, if it has one, is an index of at most `n`. -/
def targetAtMost (n : Nat) : Instr → Prop
  | .add _ _ _ => True
  | .sub _ _ _ => True
  | .adds _ _ _ => True
  | .subs _ _ _ => True
  | .and _ _ _ => True
  | .orr _ _ _ => True
  | .eor _ _ _ => True
  | .mul _ _ _ => True
  | .lsl _ _ _ => True
  | .lsr _ _ _ => True
  | .addi _ _ _ => True
  | .subi _ _ _ => True
  | .addis _ _ _ => True
  | .subis _ _ _ => True
  | .andi _ _ _ => True
  | .orri _ _ _ => True
  | .eori _ _ _ => True
  | .movz _ _ => True
  | .movk _ _ => True
  | .ldur _ _ _ => True
  | .stur _ _ _ => True
  | .ldurw _ _ _ => True
  | .sturw _ _ _ => True
  | .ldurb _ _ _ => True
  | .sturb _ _ _ => True
  | .b t => targetIndex t ≤ n
  | .bl t => targetIndex t ≤ n
  | .br _ => True
  | .cbz _ t => targetIndex t ≤ n
  | .cbnz _ t => targetIndex t ≤ n
  | .bEq t => targetIndex t ≤ n
  | .bNe t => targetIndex t ≤ n
  | .bLt t => targetIndex t ≤ n
  | .bLe t => targetIndex t ≤ n
  | .bGt t => targetIndex t ≤ n
  | .bGe t => targetIndex t ≤ n
  | .bLo t => targetIndex t ≤ n
  | .bLs t => targetIndex t ≤ n
  | .bHi t => targetIndex t ≤ n
  | .bHs t => targetIndex t ≤ n

/-! ### What a step leaves -/

/-- `t` is `s` after an instruction executed without fault, as far as 44_step_cycle R285 says it for every instruction: counters
and `last_instr` moved, outcome Ok, and nothing done to the halted flag, the latch, the parameters, the free values. -/
def Executed (i : Instr) (s t : State) : Prop :=
  t.instrCount = s.instrCount + 1 ∧ t.cycleCount = s.cycleCount + 1 ∧ t.lastInstr = some (.instr i) ∧
    t.outcome = some .ok ∧ t.halted = s.halted ∧ t.fault = s.fault ∧ t.prog = s.prog ∧ t.memCap = s.memCap ∧
    t.draws = s.draws

/-- Register `rd` reads `v` after (0 if it is register 31), every other register reads as before, and the register change set
holds `rd` exactly when its stored value changed (10_state R33, R34). -/
def SetsRegister (rd : RegIdx) (v : Int) (s t : State) : Prop :=
  (t.x rd).toInt = (if rd = 31#5 then 0 else v) ∧ (∀ r, r ≠ rd → t.x r = s.x r) ∧
    t.regChanges = if rd = 31#5 ∨ (s.x rd).toInt = v then [] else [rd]

/-- Every register reads as before and none is reported. -/
def KeepsRegisters (s t : State) : Prop := (∀ r, t.x r = s.x r) ∧ t.regChanges = []

/-- Every byte of memory reads as before. -/
def KeepsMemory (s t : State) : Prop := ∀ a, t.mem.byte a = s.mem.byte a

/-- An instruction whose effect is the result `v` in `rd`: nothing else, and the pc advances by 4. -/
def ResultOnly (i : Instr) (rd : RegIdx) (v : Int) (s t : State) : Prop :=
  Executed i s t ∧ SetsRegister rd v s t ∧ t.flags = s.flags ∧ KeepsMemory s t ∧ t.memChanges = [] ∧ t.pc = s.pc + 4

/-- The same with the flags set from `v`: N its sign, Z whether it is 0, V and C false (40_rtype_register R181). -/
def ResultAndFlags (i : Instr) (rd : RegIdx) (v : Int) (s t : State) : Prop :=
  Executed i s t ∧ SetsRegister rd v s t ∧ t.flags = ⟨decide (v < 0), decide (v = 0), false, false⟩ ∧ KeepsMemory s t ∧
    t.memChanges = [] ∧ t.pc = s.pc + 4

/-- A load that delivers `v` from `ea` (42_dtype_load_store R228). -/
def Loads (i : Instr) (rt : RegIdx) (ea v : Int) (s t : State) : Prop :=
  Executed i s t ∧ SetsRegister rt v s t ∧ t.flags = s.flags ∧ KeepsMemory s t ∧ t.memChanges = [⟨.read, ea, v⟩] ∧
    t.pc = s.pc + 4

/-- A store of the `n` bytes of `u` at `ea`, little-endian; every byte outside them reads as before
(20_memory R78, 42_dtype_load_store R228). -/
def Stores (i : Instr) (ea : Int) (n u : Nat) (s t : State) : Prop :=
  Executed i s t ∧ KeepsRegisters s t ∧ t.flags = s.flags ∧
    (∀ k < n, (t.mem.byte (ea.toNat + k)).toNat = u / 2 ^ (8 * k) % 256) ∧
    (∀ a : Nat, ¬ (ea ≤ a ∧ a < ea + n) → t.mem.byte a = s.mem.byte a) ∧ t.memChanges = [⟨.write, ea, u⟩] ∧
    t.pc = s.pc + 4

/-- A branch taken to program address `p`: nothing changes but the pc and what every step moves (43_branch R240). -/
def JumpsTo (i : Instr) (p : Int) (s t : State) : Prop :=
  Executed i s t ∧ KeepsRegisters s t ∧ t.flags = s.flags ∧ KeepsMemory s t ∧ t.memChanges = [] ∧ t.pc.toInt = p

/-- A branch not taken: the pc advances by 4 (43_branch R240). -/
def FallsThrough (i : Instr) (s t : State) : Prop :=
  Executed i s t ∧ KeepsRegisters s t ∧ t.flags = s.flags ∧ KeepsMemory s t ∧ t.memChanges = [] ∧ t.pc = s.pc + 4

/-- The pieces of state an outcome 1 to 3 of a step leaves alone, and a fault too but for the latch, the counters and
`last_instr`: registers, flags, memory, pc, halted flag, parameters; and nothing is reported. -/
def Untouched (s t : State) : Prop :=
  (∀ r, t.x r = s.x r) ∧ t.flags = s.flags ∧ KeepsMemory s t ∧ t.pc = s.pc ∧ t.halted = s.halted ∧ t.prog = s.prog ∧
    t.memCap = s.memCap ∧ t.regChanges = [] ∧ t.memChanges = []

/-- A step request that executes nothing answers `o` and changes no state at all (44_step_cycle R281, orders 1 to 3). -/
def OnlyAnswers (o : StepOutcome) (s t : State) : Prop :=
  t = { s with outcome := some o, regChanges := [], memChanges := [] }

/-- A faulting instruction (60_exceptions R312, R314): the latch holds the code, the pc and the address; each counter moved by
0 or 1; `last_instr` stayed or is the faulting instruction `d`; nothing else changed. -/
def Faults (code : FaultCode) (addr : Int) (d : Decoded) (s t : State) : Prop :=
  Untouched s t ∧ t.fault = some ⟨code, s.pc, addr⟩ ∧ t.outcome = some (.fault code) ∧
    (t.instrCount = s.instrCount ∨ t.instrCount = s.instrCount + 1) ∧
    (t.cycleCount = s.cycleCount ∨ t.cycleCount = s.cycleCount + 1) ∧
    (t.lastInstr = s.lastInstr ∨ t.lastInstr = some d)

/-- A CondB instruction jumps when `taken` holds of the flags and falls through otherwise (43_branch R246). -/
def BranchesWhen (instr : Target 19 → Instr) (cond : BitVec 4) (taken : Flags → Prop) : Prop :=
  ∀ (tidx : BitVec 19) (s : State),
    encode (instr (.resolved tidx)) = some (ccWord 0x36 tidx cond) ∧
    ∃ t, exec (instr (.resolved tidx)) s = .next t ∧
      (taken s.flags → JumpsTo (instr (.resolved tidx)) (4 * tidx.toNat) s t) ∧
      (¬ taken s.flags → FallsThrough (instr (.resolved tidx)) s t)

/-- The pc is the address of an instruction of the program, or the end of the program. -/
abbrev State.pcOnBoundary (s : State) : Prop :=
  s.pc.toInt % 4 = 0 ∧ 0 ≤ s.pc.toInt ∧ s.pc.toInt ≤ 4 * s.prog.length

/-- The state with `v` in register `r` (nowhere for register 31), nothing reported: for comparing two runs. -/
def State.poke (s : State) (r : RegIdx) (v : Word) : State := { s.writeReg r v with regChanges := s.regChanges }

end Sys2Proof.Machine
end

