-- ==== Sys2Proof/Certificates/Slice0/Obligations.lean ====
section
/-! DEFINITION. The statements for the provers, from the numbered rules of spec/: encoding, the step, each instruction's result
and frame, faults, invariants, memory, the assembler, the host's requests. -/

open Sys2Proof Sys2Proof.Machine

/-- O1. Each row of the table of R160: decode of the word is the instruction, encode of the instruction is the word.
(R160) -/
def Obligations.SpecExampleWordsDecode : Prop :=
  (decode 0x11002BE1 = .instr (.addi 1 31 10) ∧ encode (.addi 1 31 10) = some 0x11002BE1) ∧
  (decode 0x110053E2 = .instr (.addi 2 31 20) ∧ encode (.addi 2 31 20) = some 0x110053E2) ∧
  (decode 0x01020023 = .instr (.add 3 1 2) ∧ encode (.add 3 1 2) = some 0x01020023) ∧
  (decode 0x22000383 = .instr (.stur 3 28 0) ∧ encode (.stur 3 28 0) = some 0x22000383) ∧
  (decode 0x113FE7E0 = .instr (.addi 0 31 (-7)) ∧ encode (.addi 0 31 (-7)) = some 0x113FE7E0) ∧
  (decode 0x041F001F = .instr (.subs 31 0 31) ∧ encode (.subs 31 0 31) = some 0x041F001F) ∧
  (decode 0x181F37E1 = .instr (.movz 1 0x7CD) ∧ encode (.movz 1 0x7CD) = some 0x181F37E1) ∧
  (decode 0x190007E1 = .instr (.movk 1 1) ∧ encode (.movk 1 1) = some 0x190007E1) ∧
  (decode 0x23001385 = .instr (.ldurw 5 28 4) ∧ encode (.ldurw 5 28 4) = some 0x23001385) ∧
  (decode 0x31000002 = .instr (.b (.resolved 2)) ∧ encode (.b (.resolved 2)) = some 0x31000002) ∧
  (decode 0x32000008 = .instr (.bl (.resolved 8)) ∧ encode (.bl (.resolved 8)) = some 0x32000008) ∧
  (decode 0x330003C0 = .instr (.br 30) ∧ encode (.br 30) = some 0x330003C0) ∧
  (decode 0x340000C1 = .instr (.cbz 1 (.resolved 6)) ∧ encode (.cbz 1 (.resolved 6)) = some 0x340000C1) ∧
  (decode 0x36000165 = .instr (.bGe (.resolved 11)) ∧ encode (.bGe (.resolved 11)) = some 0x36000165)

/-- O2. For every instruction the encoded word is op * 2^24 plus the operand fields of R139; every well-formed (resolved)
instruction has a word, which decodes to it; every word the decoder does not call illegal is the encoding of what it
decodes to (CondB words without a condition included). (R139) -/
def Obligations.EncodeFollowsTheFormulaAndDecodeInvertsIt : Prop :=
  (∀ (i : Instr) (w : InstrWord), encode i = some w → w.toNat = opcodeNumber i * 2 ^ 24 + operandNumber i) ∧
  (∀ i : Instr, i.wellFormed = true → ∃ w, encode i = some w ∧ decode w = .instr i) ∧
  (∀ w : InstrWord, decode w ≠ .illegal w → encodeDecoded (decode w) = some w)

/-- O3. decode w is illegal iff the opcode is unassigned, or a must-be-zero field of its format is not zero, or a MOVZ or
MOVK word has bits 9:5 other than 31; executing such a word takes the fault UnsupportedInstruction with address 0.
(R135, R129, R121, R122, R123, R124, R126, R128, R305) -/
def Obligations.IllegalWordsAreTheReservedOnesAndFault : Prop :=
  (∀ w : InstrWord, decode w = .illegal w ↔
    let op := (w.extractLsb' 24 8).toNat
    (op = 0 ∨ (0x0B ≤ op ∧ op ≤ 0x10) ∨ (0x1A ≤ op ∧ op ≤ 0x20) ∨ (0x27 ≤ op ∧ op ≤ 0x30) ∨ 0x37 ≤ op) ∨
    ((1 ≤ op ∧ op ≤ 0x0A) ∧ (w.extractLsb' 21 3 ≠ 0 ∨ w.extractLsb' 10 6 ≠ 0)) ∨
    (((0x11 ≤ op ∧ op ≤ 0x19) ∨ (0x21 ≤ op ∧ op ≤ 0x26)) ∧ w.extractLsb' 22 2 ≠ 0) ∨
    ((op = 0x18 ∨ op = 0x19) ∧ w.extractLsb' 5 5 ≠ 31#5) ∨
    (op = 0x33 ∧ (w.extractLsb' 10 14 ≠ 0 ∨ w.extractLsb' 0 5 ≠ 0)) ∨
    (op = 0x36 ∧ w.extractLsb' 4 1 ≠ 0)) ∧
  (∀ (w : InstrWord) (s : State), decode w = .illegal w →
    ∃ t, execDecoded (decode w) s = .next t ∧ Faults .unsupportedInstruction 0 (.illegal w) s t)

/-- O4. For every cond of at least 10 and every target index the word decodes to a CondB without a condition, and
executing it in any state takes the fault UnsupportedCondition with address 0. (R136, R306, R131) -/
def Obligations.ReservedConditionDecodesAndFaults : Prop :=
  ∀ (cond : BitVec 4) (tidx : BitVec 19) (s : State), 10 ≤ cond.toNat →
    decode (ccWord 0x36 tidx cond) = .reservedCondition cond tidx ∧
    ∃ t, execDecoded (decode (ccWord 0x36 tidx cond)) s = .next t ∧
      Faults .unsupportedCondition 0 (.reservedCondition cond tidx) s t

/-- O5. With no fault latched, not halted, and pc = 4 * k: if the word at index k of the program store decodes to an
instruction i, the step is exec of i at that state; nothing is added around it. (R281, R285) -/
def Obligations.StepRunsTheDecodedInstruction : Prop :=
  ∀ (s : State) (k : Nat) (w : InstrWord) (i : Instr), s.fault = none → s.halted = false → s.pc.toInt = 4 * k →
    s.prog[k]? = some w → decode w = .instr i → step s = exec i s

/-- O6. Latched fault: Stopped, no change. Else halted: Refused(CpuHalted), no change. Else pc = 4N: Completed, no change.
Else a pc that is negative, above 4N or no multiple of 4: Fault(FetchFault), only the latch set. Otherwise the word at
index pc / 4 is decoded and executed. (The answer and the empty change sets are outputs, not state: log entry 6.)
(R281) -/
def Obligations.StepAnswersInTheSpecsOrder : Prop :=
  ∀ s : State,
    (s.fault ≠ none → ∃ t, step s = .next t ∧ OnlyAnswers .stopped s t) ∧
    (s.fault = none → s.halted = true → ∃ t, step s = .next t ∧ OnlyAnswers .refusedCpuHalted s t) ∧
    (s.fault = none → s.halted = false → s.pc.toInt = 4 * s.prog.length →
      ∃ t, step s = .next t ∧ OnlyAnswers .completed s t) ∧
    (s.fault = none → s.halted = false →
      (s.pc.toInt < 0 ∨ 4 * s.prog.length < s.pc.toInt ∨ s.pc.toInt % 4 ≠ 0) →
      ∃ t, step s = .next t ∧ OnlyAnswers (.fault .fetchFault) { s with fault := some ⟨.fetchFault, s.pc, 0⟩ } t) ∧
    (s.fault = none → s.halted = false → 0 ≤ s.pc.toInt → s.pc.toInt < 4 * s.prog.length → s.pc.toInt % 4 = 0 →
      ∃ w, s.prog[(s.pc.toInt / 4).toNat]? = some w ∧ step s = execDecoded (decode w) s)

/-- O7. From every state, step answers a next state; and so does exec for every instruction, resolved or not. (That the
faults of the spec are taken as next states is the model's form: log entry 7.) (R281, R285, R312) -/
def Obligations.EveryStepAndInstructionAnswersANextState : Prop :=
  (∀ s : State, ∃ t, step s = .next t) ∧ (∀ (i : Instr) (s : State), ∃ t, exec i s = .next t)

/-- O8. If a step answers Fault(c): registers, flags, memory, pc, halted and parameters are as before; the latch holds c,
the pc and an address, 0 unless c is OutOfBounds or MisalignedAccess; each counter moved by 0 or 1, by 0 for
FetchFault; and any positive number of further steps answers Stopped and changes no state. (R312, R313, R314) -/
def Obligations.FaultsArePreciseAndFinal : Prop :=
  ∀ (s t : State) (c : FaultCode), step s = .next t → t.outcome = some (.fault c) →
    Untouched s t ∧
    (∃ addr : Int, t.fault = some ⟨c, s.pc, addr⟩ ∧ (c ≠ .outOfBounds → c ≠ .misalignedAccess → addr = 0)) ∧
    (t.instrCount = s.instrCount ∨ t.instrCount = s.instrCount + 1) ∧
    (t.cycleCount = s.cycleCount ∨ t.cycleCount = s.cycleCount + 1) ∧
    (c = .fetchFault → t.instrCount = s.instrCount ∧ t.cycleCount = s.cycleCount ∧ t.lastInstr = s.lastInstr) ∧
    (∀ n : Nat, ∃ u, Host.Core.run Sys2Proof.core (n + 1) t = .next u ∧ OnlyAnswers .stopped t u)

/-- O9. With halted set and no fault latched, any positive number of steps answers Refused(CpuHalted) and changes no
state; reset clears halted. (R310) -/
def Obligations.HaltedCoreRefusesEveryStep : Prop :=
  (∀ (s : State) (n : Nat), s.fault = none → s.halted = true →
    ∃ u, Host.Core.run Sys2Proof.core (n + 1) s = .next u ∧ OnlyAnswers .refusedCpuHalted s u) ∧
  (∀ s : State, s.hostReset.halted = false)

/-- O10. With no fault, not halted and pc = 4N, any positive number of steps answers Completed and changes no state.
(R282, R281) -/
def Obligations.CompletedRunStaysCompleted : Prop :=
  ∀ (s : State) (n : Nat), s.runCompleted →
    ∃ u, Host.Core.run Sys2Proof.core (n + 1) s = .next u ∧ OnlyAnswers .completed s u

/-- O11. If a step answers Ok, instr_count and cycle_count each gain 1; if it answers Stopped, Refused(CpuHalted),
Completed or Fault(FetchFault), both keep their values. (R43, R44, R285, R352) -/
def Obligations.OnlyExecutedInstructionsAreCounted : Prop :=
  ∀ s t : State, step s = .next t →
    (t.outcome = some .ok → t.instrCount = s.instrCount + 1 ∧ t.cycleCount = s.cycleCount + 1) ∧
    (t.outcome = some .stopped ∨ t.outcome = some .refusedCpuHalted ∨ t.outcome = some .completed ∨
      t.outcome = some (.fault .fetchFault) → t.instrCount = s.instrCount ∧ t.cycleCount = s.cycleCount)

/-- O12. If a step answers Ok, then before it pc mod 4 = 0 and 0 <= pc < 4N. (R39, R81) -/
def Obligations.ExecutingStepsHaveAnInstructionAtThePc : Prop :=
  ∀ s t : State, step s = .next t → t.outcome = some .ok →
    s.pc.toInt % 4 = 0 ∧ 0 ≤ s.pc.toInt ∧ s.pc.toInt < 4 * s.prog.length

/-- O13. From a state whose pc is a multiple of 4, every instruction other than BR leaves a pc that is a multiple of 4,
whatever else it does. (R38, R39) -/
def Obligations.OnlyBrLeavesTheFourByteGrid : Prop :=
  ∀ (i : Instr) (s t : State), exec i s = .next t → (∀ rn, i ≠ .br rn) → s.pc.toInt % 4 = 0 → t.pc.toInt % 4 = 0

/-- O14. After the reset request from any state, and in State.reset: every register reads 0, pc is 0, the flags are false,
every byte of memory is 0, both counters are 0, halted is false, last_instr and the latch are none; the reset request
leaves PROG and MEM_CAP unchanged. (R53) -/
def Obligations.ResetGivesTheSpecsValues : Prop :=
  let ok := fun t : State =>
    (∀ r, t.x r = 0) ∧ t.pc = 0 ∧ t.flags = ⟨false, false, false, false⟩ ∧ (∀ a, t.mem.byte a = 0) ∧ t.instrCount = 0 ∧
      t.cycleCount = 0 ∧ t.halted = false ∧ t.lastInstr = none ∧ t.fault = none
  ok State.reset ∧ ∀ s : State, ok s.hostReset ∧ s.hostReset.prog = s.prog ∧ s.hostReset.memCap = s.memCap

/-- O15. x[31] is 0 in every state; writing any value to register 31 leaves the whole state as it was, the change set
included. (R34) -/
def Obligations.RegisterThirtyOneReadsZeroAndDiscardsWrites : Prop :=
  ∀ (s : State) (v : Word), s.x 31#5 = 0 ∧ s.writeReg 31#5 v = s

/-- O16. For every register r other than 31 and every integer z: after the write of z, x[r] is wrap64(z) by the formula of
R16, every other register is as before, and the change set gains r exactly when the stored value changed. (R33, R32,
R16) -/
def Obligations.RegisterHoldsTheWrappedValueWritten : Prop :=
  ∀ (s : State) (r : RegIdx) (z : Int), r ≠ 31#5 →
    let t := s.writeReg r (wrap64 z)
    (t.x r).toInt = specWrap64 z ∧ (∀ q, q ≠ r → t.x q = s.x q) ∧
      t.regChanges = if (s.x r).toInt = specWrap64 z then s.regChanges else s.regChanges ++ [r]

/-- O17. For all registers and states ADD answers a next state with x[rd] = wrap64(x[rn] + x[rm]) (nothing for rd = 31),
SUB with wrap64(x[rn] - x[rm]). No flag, no other register, no byte of memory changes; the pc advances by 4 and both
counters by 1. (R182, R183) -/
def Obligations.AddAndSubWriteTheWrappedResult : Prop :=
  ∀ (rd rn rm : RegIdx) (s : State),
    (encode (.add rd rn rm) = some (rWord 0x01 rm rn rd) ∧
      ∃ t, exec (.add rd rn rm) s = .next t ∧ ResultOnly (.add rd rn rm) rd
        (specWrap64 ((s.x rn).toInt + (s.x rm).toInt)) s t) ∧
    (encode (.sub rd rn rm) = some (rWord 0x02 rm rn rd) ∧
      ∃ t, exec (.sub rd rn rm) s = .next t ∧ ResultOnly (.sub rd rn rm) rd
        (specWrap64 ((s.x rn).toInt - (s.x rm).toInt)) s t)

/-- O18. For all registers and states ADDS and SUBS answer a next state with the wrapped sum or difference in x[rd]
(nothing for rd = 31) and N = (r < 0), Z = (r = 0), V = C = false in every case. No other register and no byte of
memory changes; the pc advances by 4 and both counters by 1. (R184, R185) -/
def Obligations.AddsAndSubsWriteTheResultAndSetTheFlags : Prop :=
  ∀ (rd rn rm : RegIdx) (s : State),
    (encode (.adds rd rn rm) = some (rWord 0x03 rm rn rd) ∧
      ∃ t, exec (.adds rd rn rm) s = .next t ∧ ResultAndFlags (.adds rd rn rm) rd
        (specWrap64 ((s.x rn).toInt + (s.x rm).toInt)) s t) ∧
    (encode (.subs rd rn rm) = some (rWord 0x04 rm rn rd) ∧
      ∃ t, exec (.subs rd rn rm) s = .next t ∧ ResultAndFlags (.subs rd rn rm) rd
        (specWrap64 ((s.x rn).toInt - (s.x rm).toInt)) s t)

/-- O19. For all registers and states AND, ORR, EOR answer a next state with the bitwise and, or, exclusive or of x[rn]
and x[rm] in x[rd] (nothing for rd = 31). No flag, no other register, no byte of memory changes; the pc advances by 4
and both counters by 1. (R186, R187, R188) -/
def Obligations.AndOrrEorWriteTheBitwiseResult : Prop :=
  ∀ (rd rn rm : RegIdx) (s : State),
    (encode (.and rd rn rm) = some (rWord 0x05 rm rn rd) ∧
      ∃ t, exec (.and rd rn rm) s = .next t ∧ ResultOnly (.and rd rn rm) rd
        ((s.x rn &&& s.x rm).toInt) s t) ∧
    (encode (.orr rd rn rm) = some (rWord 0x06 rm rn rd) ∧
      ∃ t, exec (.orr rd rn rm) s = .next t ∧ ResultOnly (.orr rd rn rm) rd
        ((s.x rn ||| s.x rm).toInt) s t) ∧
    (encode (.eor rd rn rm) = some (rWord 0x07 rm rn rd) ∧
      ∃ t, exec (.eor rd rn rm) s = .next t ∧ ResultOnly (.eor rd rn rm) rd
        ((s.x rn ^^^ s.x rm).toInt) s t)

/-- O20. For all registers and states MUL answers a next state with x[rd] = wrap64(x[rn] * x[rm]) (nothing for rd = 31).
No flag, no other register, no byte of memory changes; the pc advances by 4 and both counters by 1. (R189) -/
def Obligations.MulWritesTheLowHalfOfTheProduct : Prop :=
  ∀ (rd rn rm : RegIdx) (s : State),
    (encode (.mul rd rn rm) = some (rWord 0x08 rm rn rd) ∧
      ∃ t, exec (.mul rd rn rm) s = .next t ∧ ResultOnly (.mul rd rn rm) rd
        (specWrap64 ((s.x rn).toInt * (s.x rm).toInt)) s t)

/-- O21. For all registers and states, with sh = u64(x[rm]) mod 64: LSL answers a next state with x[rd] = wrap64(x[rn] *
2^sh), LSR with wrap64(floor(u64(x[rn]) / 2^sh)) (nothing for rd = 31). No flag, no other register, no byte of memory
changes; the pc advances by 4 and both counters by 1. (R190, R191) -/
def Obligations.ShiftsTakeTheirAmountModulo64 : Prop :=
  ∀ (rd rn rm : RegIdx) (s : State),
    (encode (.lsl rd rn rm) = some (rWord 0x09 rm rn rd) ∧
      ∃ t, exec (.lsl rd rn rm) s = .next t ∧ ResultOnly (.lsl rd rn rm) rd
        (specWrap64 ((s.x rn).toInt * 2 ^ ((s.x rm).toNat % 64))) s t) ∧
    (encode (.lsr rd rn rm) = some (rWord 0x0A rm rn rd) ∧
      ∃ t, exec (.lsr rd rn rm) s = .next t ∧ ResultOnly (.lsr rd rn rm) rd
        (specWrap64 (((s.x rn).toNat / 2 ^ ((s.x rm).toNat % 64) : Nat) : Int)) s t)

/-- O22. For all registers, immediates and states ADDI answers a next state with x[rd] = wrap64(x[rn] + imm), SUBI with
wrap64(x[rn] - imm) (nothing for rd = 31), imm the signed value of the 12 bits. No flag, no other register, no byte of
memory changes; the pc advances by 4 and both counters by 1. (R201, R202) -/
def Obligations.AddiAndSubiWriteTheWrappedResult : Prop :=
  ∀ (rd rn : RegIdx) (imm : Imm) (s : State),
    (encode (.addi rd rn imm) = some (iWord 0x11 imm rn rd) ∧
      ∃ t, exec (.addi rd rn imm) s = .next t ∧ ResultOnly (.addi rd rn imm) rd
        (specWrap64 ((s.x rn).toInt + imm.toInt)) s t) ∧
    (encode (.subi rd rn imm) = some (iWord 0x12 imm rn rd) ∧
      ∃ t, exec (.subi rd rn imm) s = .next t ∧ ResultOnly (.subi rd rn imm) rd
        (specWrap64 ((s.x rn).toInt - imm.toInt)) s t)

/-- O23. For all registers, immediates and states ADDIS and SUBIS answer a next state with the wrapped sum or difference
in x[rd] (nothing for rd = 31) and N = (r < 0), Z = (r = 0), V = C = false in every case. No other register and no
byte of memory changes; the pc advances by 4 and both counters by 1. (R203, R204) -/
def Obligations.AddisAndSubisWriteTheResultAndSetTheFlags : Prop :=
  ∀ (rd rn : RegIdx) (imm : Imm) (s : State),
    (encode (.addis rd rn imm) = some (iWord 0x13 imm rn rd) ∧
      ∃ t, exec (.addis rd rn imm) s = .next t ∧ ResultAndFlags (.addis rd rn imm) rd
        (specWrap64 ((s.x rn).toInt + imm.toInt)) s t) ∧
    (encode (.subis rd rn imm) = some (iWord 0x14 imm rn rd) ∧
      ∃ t, exec (.subis rd rn imm) s = .next t ∧ ResultAndFlags (.subis rd rn imm) rd
        (specWrap64 ((s.x rn).toInt - imm.toInt)) s t)

/-- O24. For all registers, immediates and states ANDI, ORRI, EORI answer a next state with the bitwise result of x[rn]
and the immediate sign-extended to 64 bits in x[rd] (nothing for rd = 31). No flag, no other register, no byte of
memory changes; the pc advances by 4 and both counters by 1. (R205, R206, R207) -/
def Obligations.AndiOrriEoriUseTheSignExtendedImmediate : Prop :=
  ∀ (rd rn : RegIdx) (imm : Imm) (s : State),
    (encode (.andi rd rn imm) = some (iWord 0x15 imm rn rd) ∧
      ∃ t, exec (.andi rd rn imm) s = .next t ∧ ResultOnly (.andi rd rn imm) rd
        ((s.x rn &&& imm.signExtend 64).toInt) s t) ∧
    (encode (.orri rd rn imm) = some (iWord 0x16 imm rn rd) ∧
      ∃ t, exec (.orri rd rn imm) s = .next t ∧ ResultOnly (.orri rd rn imm) rd
        ((s.x rn ||| imm.signExtend 64).toInt) s t) ∧
    (encode (.eori rd rn imm) = some (iWord 0x17 imm rn rd) ∧
      ∃ t, exec (.eori rd rn imm) s = .next t ∧ ResultOnly (.eori rd rn imm) rd
        ((s.x rn ^^^ imm.signExtend 64).toInt) s t)

/-- O25. For every register, immediate and state MOVZ answers a next state with x[rd] = imm as a signed value (nothing for
rd = 31). No flag, no other register, no byte of memory changes; the pc advances by 4 and both counters by 1. (R208) -/
def Obligations.MovzWritesTheImmediate : Prop :=
  ∀ (rd : RegIdx) (imm : Imm) (s : State),
    encode (.movz rd imm) = some (iWord 0x18 imm 31#5 rd) ∧
    ∃ t, exec (.movz rd imm) s = .next t ∧ ResultOnly (.movz rd imm) rd imm.toInt s t

/-- O26. For every register, immediate and state MOVK answers a next state with x[rd] = wrap64(old - old[15:0] + imm mod
2^16) (nothing for rd = 31), so bits 63:16 are those of the old value and bits 15:0 those of the immediate sign-
extended. No flag, no other register, no byte of memory changes; the pc advances by 4 and both counters by 1. (R209) -/
def Obligations.MovkReplacesTheLowSixteenBits : Prop :=
  ∀ (rd : RegIdx) (imm : Imm) (s : State),
    encode (.movk rd imm) = some (iWord 0x19 imm 31#5 rd) ∧
    ∃ t, exec (.movk rd imm) s = .next t ∧
      ResultOnly (.movk rd imm) rd
        (specWrap64 ((s.x rd).toNat - ((s.x rd).toNat % 2 ^ 16 : Nat) + imm.toInt % 2 ^ 16)) s t ∧
      (rd ≠ 31#5 → (t.x rd).extractLsb' 16 48 = (s.x rd).extractLsb' 16 48 ∧
        (t.x rd).extractLsb' 0 16 = imm.signExtend 16)

/-- O27. With ea = x[rn] + imm, unwrapped, and a legal MEM_CAP: an aligned ea in [0, MEM_CAP) answers a next state with
x[rt] = wrap64 of the eight bytes (nothing for rt = 31), one read event, no other register, flag or byte changed, pc +
4; ea not a multiple of 8 takes MisalignedAccess(ea); otherwise ea outside takes OutOfBounds(ea). (R221) -/
def Obligations.LdurLoadsOrFaults : Prop :=
  ∀ (rt rn : RegIdx) (imm : Imm) (s : State) (ea : Int), ea = (s.x rn).toInt + imm.toInt →
    Config.legalMemCap s.memCap = true →
    encode (.ldur rt rn imm) = some (iWord 0x21 imm rn rt) ∧
    (ea % 8 = 0 → 0 ≤ ea → ea < s.memCap → ∃ t, exec (.ldur rt rn imm) s = .next t ∧ Loads (.ldur rt rn imm) rt ea (specWrap64 (littleEndian s.mem ea.toNat 8)) s t) ∧
    (ea % 8 ≠ 0 → ∃ t, exec (.ldur rt rn imm) s = .next t ∧ Faults .misalignedAccess ea (.instr (.ldur rt rn imm)) s t) ∧
    (ea % 8 = 0 → (ea < 0 ∨ s.memCap ≤ ea) →
      ∃ t, exec (.ldur rt rn imm) s = .next t ∧ Faults .outOfBounds ea (.instr (.ldur rt rn imm)) s t)

/-- O28. With ea = x[rn] + imm, unwrapped, and a legal MEM_CAP: an aligned ea in [0, MEM_CAP) answers a next state with
x[rt] = wrap32 of the four bytes, that is, sign-extended (nothing for rt = 31), one read event, no other register,
flag or byte changed, pc + 4; ea not a multiple of 4 takes MisalignedAccess(ea); otherwise ea outside takes
OutOfBounds(ea). (R223) -/
def Obligations.LdurwLoadsOrFaults : Prop :=
  ∀ (rt rn : RegIdx) (imm : Imm) (s : State) (ea : Int), ea = (s.x rn).toInt + imm.toInt →
    Config.legalMemCap s.memCap = true →
    encode (.ldurw rt rn imm) = some (iWord 0x23 imm rn rt) ∧
    (ea % 4 = 0 → 0 ≤ ea → ea < s.memCap → ∃ t, exec (.ldurw rt rn imm) s = .next t ∧ Loads (.ldurw rt rn imm) rt ea (specWrap32 (littleEndian s.mem ea.toNat 4)) s t) ∧
    (ea % 4 ≠ 0 → ∃ t, exec (.ldurw rt rn imm) s = .next t ∧ Faults .misalignedAccess ea (.instr (.ldurw rt rn imm)) s t) ∧
    (ea % 4 = 0 → (ea < 0 ∨ s.memCap ≤ ea) →
      ∃ t, exec (.ldurw rt rn imm) s = .next t ∧ Faults .outOfBounds ea (.instr (.ldurw rt rn imm)) s t)

/-- O29. With ea = x[rn] + imm, unwrapped, and a legal MEM_CAP: an ea in [0, MEM_CAP) answers a next state with x[rt] =
the byte, zero-extended (nothing for rt = 31), one read event, no other register, flag or byte changed, pc + 4; ea
outside takes OutOfBounds(ea). (R225) -/
def Obligations.LdurbLoadsOrFaults : Prop :=
  ∀ (rt rn : RegIdx) (imm : Imm) (s : State) (ea : Int), ea = (s.x rn).toInt + imm.toInt →
    Config.legalMemCap s.memCap = true →
    encode (.ldurb rt rn imm) = some (iWord 0x25 imm rn rt) ∧
    (0 ≤ ea → ea < s.memCap → ∃ t, exec (.ldurb rt rn imm) s = .next t ∧ Loads (.ldurb rt rn imm) rt ea (littleEndian s.mem ea.toNat 1) s t) ∧
    ((ea < 0 ∨ s.memCap ≤ ea) →
      ∃ t, exec (.ldurb rt rn imm) s = .next t ∧ Faults .outOfBounds ea (.instr (.ldurb rt rn imm)) s t)

/-- O30. With ea = x[rn] + imm, unwrapped, and a legal MEM_CAP: an aligned ea in [0, MEM_CAP) answers a next state in
which byte ea + k is bits 8k+7:8k of u = u64(x[rt]) mod 2^64 for k < 8, every byte outside these reads as before, one
write event (ea, u), no register or flag changed, pc + 4; ea not a multiple of 8 takes MisalignedAccess(ea); otherwise
ea outside takes OutOfBounds(ea). (R222) -/
def Obligations.SturStoresOrFaults : Prop :=
  ∀ (rt rn : RegIdx) (imm : Imm) (s : State) (ea : Int), ea = (s.x rn).toInt + imm.toInt →
    Config.legalMemCap s.memCap = true →
    encode (.stur rt rn imm) = some (iWord 0x22 imm rn rt) ∧
    (ea % 8 = 0 → 0 ≤ ea → ea < s.memCap → ∃ t, exec (.stur rt rn imm) s = .next t ∧ Stores (.stur rt rn imm) ea 8 ((s.x rt).toNat % 2 ^ 64) s t) ∧
    (ea % 8 ≠ 0 → ∃ t, exec (.stur rt rn imm) s = .next t ∧ Faults .misalignedAccess ea (.instr (.stur rt rn imm)) s t) ∧
    (ea % 8 = 0 → (ea < 0 ∨ s.memCap ≤ ea) →
      ∃ t, exec (.stur rt rn imm) s = .next t ∧ Faults .outOfBounds ea (.instr (.stur rt rn imm)) s t)

/-- O31. With ea = x[rn] + imm, unwrapped, and a legal MEM_CAP: an aligned ea in [0, MEM_CAP) answers a next state in
which byte ea + k is bits 8k+7:8k of u = u64(x[rt]) mod 2^32 for k < 4, every byte outside these reads as before, one
write event (ea, u), no register or flag changed, pc + 4; ea not a multiple of 4 takes MisalignedAccess(ea); otherwise
ea outside takes OutOfBounds(ea). (R224) -/
def Obligations.SturwStoresOrFaults : Prop :=
  ∀ (rt rn : RegIdx) (imm : Imm) (s : State) (ea : Int), ea = (s.x rn).toInt + imm.toInt →
    Config.legalMemCap s.memCap = true →
    encode (.sturw rt rn imm) = some (iWord 0x24 imm rn rt) ∧
    (ea % 4 = 0 → 0 ≤ ea → ea < s.memCap → ∃ t, exec (.sturw rt rn imm) s = .next t ∧ Stores (.sturw rt rn imm) ea 4 ((s.x rt).toNat % 2 ^ 32) s t) ∧
    (ea % 4 ≠ 0 → ∃ t, exec (.sturw rt rn imm) s = .next t ∧ Faults .misalignedAccess ea (.instr (.sturw rt rn imm)) s t) ∧
    (ea % 4 = 0 → (ea < 0 ∨ s.memCap ≤ ea) →
      ∃ t, exec (.sturw rt rn imm) s = .next t ∧ Faults .outOfBounds ea (.instr (.sturw rt rn imm)) s t)

/-- O32. With ea = x[rn] + imm, unwrapped, and a legal MEM_CAP: an ea in [0, MEM_CAP) answers a next state in which byte
ea + k is bits 8k+7:8k of u = u64(x[rt]) mod 2^8 for k < 1, every byte outside these reads as before, one write event
(ea, u), no register or flag changed, pc + 4; ea outside takes OutOfBounds(ea). (R226) -/
def Obligations.SturbStoresOrFaults : Prop :=
  ∀ (rt rn : RegIdx) (imm : Imm) (s : State) (ea : Int), ea = (s.x rn).toInt + imm.toInt →
    Config.legalMemCap s.memCap = true →
    encode (.sturb rt rn imm) = some (iWord 0x26 imm rn rt) ∧
    (0 ≤ ea → ea < s.memCap → ∃ t, exec (.sturb rt rn imm) s = .next t ∧ Stores (.sturb rt rn imm) ea 1 ((s.x rt).toNat % 2 ^ 8) s t) ∧
    ((ea < 0 ∨ s.memCap ≤ ea) →
      ∃ t, exec (.sturb rt rn imm) s = .next t ∧ Faults .outOfBounds ea (.instr (.sturb rt rn imm)) s t)

/-- O33. For every target index and state B answers a next state with pc = 4 * tidx; no register, flag or byte changes.
(R241, R240, R125, R133) -/
def Obligations.BJumpsToItsTarget : Prop :=
  ∀ (tidx : BitVec 24) (s : State), encode (.b (.resolved tidx)) = some (bWord 0x31 tidx) ∧
    ∃ t, exec (.b (.resolved tidx)) s = .next t ∧ JumpsTo (.b (.resolved tidx)) (4 * tidx.toNat) s t

/-- O34. For every target index and state BL answers a next state with x[30] = wrap64(pc + 4), pc = 4 * tidx; no other
register, no flag and no byte changes. (R242, R240, R125, R133) -/
def Obligations.BlLinksAndJumps : Prop :=
  ∀ (tidx : BitVec 24) (s : State), encode (.bl (.resolved tidx)) = some (bWord 0x32 tidx) ∧
    ∃ t, exec (.bl (.resolved tidx)) s = .next t ∧ Executed (.bl (.resolved tidx)) s t ∧
      SetsRegister 30#5 (specWrap64 (s.pc.toInt + 4)) s t ∧ t.flags = s.flags ∧ KeepsMemory s t ∧ t.memChanges = [] ∧
      t.pc.toInt = 4 * tidx.toNat

/-- O35. For every register and state BR answers a next state with pc = x[rn], whatever the value (0 for register 31); no
register, flag or byte changes. (R243, R126, R34) -/
def Obligations.BrJumpsToTheRegisterUnchecked : Prop :=
  ∀ (rn : RegIdx) (s : State), encode (.br rn) = some (brWord 0x33 rn) ∧
    ∃ t, exec (.br rn) s = .next t ∧ JumpsTo (.br rn) (s.x rn).toInt s t

/-- O36. For every register, target index and state CBZ and CBNZ answer a next state: CBZ with pc = 4 * tidx if x[rt] = 0
and pc + 4 otherwise, CBNZ the other way round; no register, flag or byte changes. (R244, R245, R240, R127, R133) -/
def Obligations.CbzAndCbnzTestTheWholeRegister : Prop :=
  ∀ (rt : RegIdx) (tidx : BitVec 19) (s : State),
    encode (.cbz rt (.resolved tidx)) = some (cbWord 0x34 tidx rt) ∧
    encode (.cbnz rt (.resolved tidx)) = some (cbWord 0x35 tidx rt) ∧
    (∃ t, exec (.cbz rt (.resolved tidx)) s = .next t ∧
      ((s.x rt).toInt = 0 → JumpsTo (.cbz rt (.resolved tidx)) (4 * tidx.toNat) s t) ∧
      ((s.x rt).toInt ≠ 0 → FallsThrough (.cbz rt (.resolved tidx)) s t)) ∧
    (∃ t, exec (.cbnz rt (.resolved tidx)) s = .next t ∧
      ((s.x rt).toInt ≠ 0 → JumpsTo (.cbnz rt (.resolved tidx)) (4 * tidx.toNat) s t) ∧
      ((s.x rt).toInt = 0 → FallsThrough (.cbnz rt (.resolved tidx)) s t))

/-- O37. For every target index and every state, all sixteen flag values included, B.EQ to B.HS answer a next state: pc =
4 * tidx if the predicate of R249 holds of N, Z, V, C, pc + 4 otherwise; no register, flag or byte changes. The words
carry the condition numbers 0 to 9. (R249, R251, R252, R253, R254, R255, R256, R257, R258, R259, R260) -/
def Obligations.CondBranchesFollowTheTruthTable : Prop :=
  BranchesWhen .bEq 0 (fun f => f.z = true) ∧
  BranchesWhen .bNe 1 (fun f => ¬ f.z = true) ∧
  BranchesWhen .bLt 2 (fun f => f.n ≠ f.v) ∧
  BranchesWhen .bLe 3 (fun f => f.n ≠ f.v ∨ f.z = true) ∧
  BranchesWhen .bGt 4 (fun f => ¬ f.z = true ∧ f.n = f.v) ∧
  BranchesWhen .bGe 5 (fun f => f.n = f.v) ∧
  BranchesWhen .bLo 6 (fun f => ¬ f.c = true) ∧
  BranchesWhen .bLs 7 (fun f => ¬ f.c = true ∨ f.z = true) ∧
  BranchesWhen .bHi 8 (fun f => f.c = true ∧ ¬ f.z = true) ∧
  BranchesWhen .bHs 9 (fun f => f.c = true)

/-- O38. B and BL with an unresolved target take the fault UnresolvedBranchTarget with address 0 in every state, BL
without writing register 30; CBZ, CBNZ and the ten B.cond take it when their condition holds and fall through
otherwise. Such an instruction exists at the abstract level only: it has no word. (R307, R112, R241, R242, R244, R245,
R246) -/
def Obligations.UnresolvedTargetsFaultWhenTaken : Prop :=
  ∀ (l : Label) (rt : RegIdx) (c : Cond) (s : State),
    (∃ t, exec (.b (.unresolved l)) s = .next t ∧ Faults .unresolvedBranchTarget 0 (.instr (.b (.unresolved l))) s t) ∧
    (∃ t, exec (.bl (.unresolved l)) s = .next t ∧ Faults .unresolvedBranchTarget 0 (.instr (.bl (.unresolved l))) s t) ∧
    (∃ t, exec (.cbz rt (.unresolved l)) s = .next t ∧
      (s.x rt = 0 → Faults .unresolvedBranchTarget 0 (.instr (.cbz rt (.unresolved l))) s t) ∧
      (s.x rt ≠ 0 → FallsThrough (.cbz rt (.unresolved l)) s t)) ∧
    (∃ t, exec (.cbnz rt (.unresolved l)) s = .next t ∧
      (s.x rt ≠ 0 → Faults .unresolvedBranchTarget 0 (.instr (.cbnz rt (.unresolved l))) s t) ∧
      (s.x rt = 0 → FallsThrough (.cbnz rt (.unresolved l)) s t)) ∧
    (∃ t, exec (.bCond (.unresolved l) c) s = .next t ∧
      (condHolds s.flags c = true → Faults .unresolvedBranchTarget 0 (.instr (.bCond (.unresolved l) c)) s t) ∧
      (condHolds s.flags c = false → FallsThrough (.bCond (.unresolved l) c) s t)) ∧
    encode (.b (.unresolved l)) = none ∧ encode (.bl (.unresolved l)) = none ∧
    encode (.cbz rt (.unresolved l)) = none ∧ encode (.cbnz rt (.unresolved l)) = none ∧
    encode (.bCond (.unresolved l) c) = none

/-- O39. For flags with V = C = false: EQ is Z, NE not Z, LT N, LE N or Z, GT neither Z nor N, GE not N, LO and LS true,
HI and HS false. (R250, R249) -/
def Obligations.ReachableConditionsReduce : Prop :=
  ∀ f : Flags, f.v = false → f.c = false →
    condHolds f .eq = f.z ∧ condHolds f .ne = !f.z ∧ condHolds f .lt = f.n ∧ condHolds f .le = (f.n || f.z) ∧
    condHolds f .gt = (!f.z && !f.n) ∧ condHolds f .ge = !f.n ∧ condHolds f .lo = true ∧ condHolds f .ls = true ∧
    condHolds f .hi = false ∧ condHolds f .hs = false

/-- O40. State.reset satisfies the invariant: legal MEM_CAP and program length, memory in canonical form inside the
capacity, V and C false, N and Z not both true, the counters equal while no fault is latched. (Legal parameters and
the canonical form are the model's: log entries 1, 2, 8.) (R54, R53, R9, R11) -/
def Obligations.InvariantHoldsAtReset : Prop :=
  State.reset.Inv

/-- O41. From every state that satisfies the invariant, the next state satisfies it: MEM_CAP and program length legal,
memory canonical and inside the capacity, V and C false, N and Z not both true, cycle_count = instr_count while no
fault is latched. (Legal parameters and the canonical form are the model's: log entries 1, 2, 8.) (R54, R42, R49, R41,
R9, R11) -/
def Obligations.StepKeepsTheInvariant : Prop :=
  ∀ s t : State, s.Inv → step s = .next t → t.Inv

/-- O42. From every state that satisfies the invariant, the state after any request (step, get_state, a byte read, reset,
halt, load_program of any program) satisfies it; and so does the state construction gives, for every capacity it does
not refuse. (Legal parameters, the canonical form of memory and the refusals of construct and load_program are the
model's: log entries 1, 2, 8, 9, 18.) (R54, R9, R11, R342, R360, R362, R340, R345, R366, R367) -/
def Obligations.HostRequestsKeepTheInvariant : Prop :=
  (∀ (r : Request) (s : State), s.Inv → (serve r s).1.Inv) ∧
  (∀ (cap : Nat) (s : State), construct cap = some s → s.Inv)

/-- O43. Every other instruction leaves all four flags as they were; and an instruction that is no B.cond does the same
from a state with other flags: the same next state, but for the flags themselves, which a flag-setting instruction
makes equal and any other leaves. (R42, R41) -/
def Obligations.OnlyFourInstructionsWriteFlagsAndTenReadThem : Prop :=
  (∀ (i : Instr) (s t : State), exec i s = .next t → isFlagSetting i = false → t.flags = s.flags) ∧
  (∀ (i : Instr) (s t : State) (f : Flags), exec i s = .next t → isCondB i = false →
    exec i { s with flags := f } = .next (if isFlagSetting i then t else { t with flags := f }))

/-- O44. After any step PROG, MEM_CAP and halted are as before. (R91, R50, R45) -/
def Obligations.NoStepChangesTheProgramOrTheHaltedFlag : Prop :=
  ∀ s t : State, step s = .next t → t.prog = s.prog ∧ t.memCap = s.memCap ∧ t.halted = s.halted

/-- O45. Every instruction other than the three stores leaves the memory as it was, in every state. (R70, R49) -/
def Obligations.OnlyStoresChangeMemory : Prop :=
  ∀ (i : Instr) (s t : State), exec i s = .next t → isStore i = false → t.mem = s.mem

/-- O46. For every instruction and every register r that is neither its destination nor one of its sources by the table of
R36: r reads as before, and from the state with any value v in r the instruction does exactly the same, giving the
same next state with v in r. (R36) -/
def Obligations.RegistersNotNamedAreNeitherReadNorWritten : Prop :=
  ∀ (i : Instr) (s t : State) (r : RegIdx) (v : Word), exec i s = .next t → destination i ≠ some r → r ∉ sources i →
    t.x r = s.x r ∧ exec i (s.poke r v) = .next (t.poke r v)

/-- O47. For n in {1, 4, 8} and every integer address: n > 1 and a misaligned address give MisalignedAccess; else an
address below 0 or with address + n above MEM_CAP gives OutOfBounds; else the read gives the sum of the bytes times
2^(8k), and the write of any integer v makes byte address + k bits 8k+7:8k of v mod 2^(8n), leaves every other byte,
and changes nothing but memory. (R77, R78) -/
def Obligations.AccessPrimitivesFollowTheSpec : Prop :=
  ∀ (s : State) (addr : Int) (n : Nat) (v : Int), n = 1 ∨ n = 4 ∨ n = 8 →
    (1 < n ∧ addr % n ≠ 0 →
      s.memRead addr n = .error .misalignedAccess ∧ s.memWrite addr n v = .error .misalignedAccess) ∧
    (¬ (1 < n ∧ addr % n ≠ 0) → (addr < 0 ∨ (s.memCap : Int) < addr + n) →
      s.memRead addr n = .error .outOfBounds ∧ s.memWrite addr n v = .error .outOfBounds) ∧
    (¬ (1 < n ∧ addr % n ≠ 0) → ¬ (addr < 0 ∨ (s.memCap : Int) < addr + n) →
      s.memRead addr n = .ok (littleEndian s.mem addr.toNat n) ∧
      ∃ m : Memory, s.memWrite addr n v = .ok { s with mem := m } ∧
        (∀ k < n, (m.byte (addr.toNat + k)).toNat = (v % 2 ^ (8 * n)).toNat / 2 ^ (8 * k) % 256) ∧
        (∀ a : Nat, ¬ (addr ≤ a ∧ a < addr + n) → m.byte a = s.mem.byte a))

/-- O48. If MemWrite(addr, n, v) succeeds, MemRead(addr, n) afterwards succeeds and gives v mod 2^(8n); for n = 8 the
doubleword reader gives wrap64(v) by the formula of R16. (R85, R77, R78) -/
def Obligations.ReadAfterWriteGivesTheValueWritten : Prop :=
  ∀ (s t : State) (addr v : Int) (n : Nat), s.memWrite addr n v = .ok t →
    t.memRead addr n = .ok (v % 2 ^ (8 * n)).toNat ∧
    (n = 8 → ∀ u, t.memRead addr n = .ok u → (wrap64 u).toInt = specWrap64 v)

/-- O49. If MemWrite(a, 8, v) succeeds then afterwards MemRead(a + k, 1) is bits 8k+7:8k of v mod 2^64 for k < 8,
MemRead(a, 4) is its low and MemRead(a + 4, 4) its high 32 bits. (R93, R76, R77, R78) -/
def Obligations.NarrowReadsSeeTheBytesOfAWiderWrite : Prop :=
  ∀ (s t : State) (a v : Int), s.memWrite a 8 v = .ok t →
    (∀ k : Nat, k < 8 → t.memRead (a + k) 1 = .ok ((v % 2 ^ 64).toNat / 2 ^ (8 * k) % 256)) ∧
    t.memRead a 4 = .ok ((v % 2 ^ 64).toNat % 2 ^ 32) ∧ t.memRead (a + 4) 4 = .ok ((v % 2 ^ 64).toNat / 2 ^ 32)

/-- O50. The text of S7 assembles to the words of P1; the operand list of X1, [X2, #8] has two operands. (R144, R145,
R154, R160) -/
def Obligations.SourceExampleAssembles : Prop :=
  assemble "ADDI X1, XZR, #10\nADDI X2, XZR, #20\nADD X3, X1, X2\nSTUR X3,[X28,#0]".toList =
    .ok [0x11002BE1, 0x110053E2, 0x01020023, 0x22000383] ∧
  operandsOf " X1, [X2, #8]".toList = ["X1".toList, "[X2, #8]".toList]

/-- O51. For a target of at most 24 bits and a label table: if the label stands for index k and k fits the field, the
resolved target's byte address is 4 * k; if the label is not in the table, the error is an undefined label. (R152,
R153, R133) -/
def Obligations.LabelsResolveToFourTimesTheirIndex : Prop :=
  ∀ (w : Nat) (labels : List (Label × Nat)) (l : Label), w ≤ 24 →
    (∀ k, lookupLabel labels l = some k → k < 2 ^ w →
      ∃ tidx : BitVec w, resolveTarget labels (.unresolved l : Target w) = .ok (.resolved tidx) ∧
        (targetAddress tidx).toInt = 4 * k) ∧
    (lookupLabel labels l = none →
      resolveTarget labels (.unresolved l : Target w) = .error (.undefinedLabel l))

/-- O52. If pass 1 records errors, parsing fails and the aggregate holds every one of them; if pass 1 records none and
pass 2 does, parsing fails and the aggregate holds every error of pass 2; it holds no error that neither pass nor the
program length gave. (Where the length error stands, and whether pass 2 adds to a failed pass 1, are the model's: log
entries 16, 17.) (R151, R153, R140, R154, R155) -/
def Obligations.ParseReportsEveryErrorAndNoProgram : Prop :=
  ∀ source : List Char,
    let p := pass1 source
    let q := pass2 p.labels p.program
    (p.errors ≠ [] → ∃ es, parse source = .error es ∧ ∀ e ∈ p.errors, e ∈ es) ∧
    (p.errors = [] → q.2 ≠ [] → ∃ es, parse source = .error es ∧ ∀ e ∈ q.2, e ∈ es) ∧
    (∀ es, parse source = .error es →
      es ≠ [] ∧ ∀ e ∈ es, e ∈ p.errors ∨ e ∈ q.2 ∨ e ∈ lengthErrors p.program)

/-- O53. If parsing gives a program: it has at most MAX_PROG instructions, each of them well-formed, each branch target an
index of at most N; and its words decode one for one to its instructions. (R154, R152, R112, R133, R139) -/
def Obligations.ParsedProgramsAreResolvedAndDecode : Prop :=
  ∀ (source : List Char) (p : List (Nat × Instr)), parse source = .ok p →
    p.length ≤ Config.maxProg ∧ (∀ q ∈ p, q.2.wellFormed = true ∧ targetAtMost p.length q.2) ∧
    (wordsOfProgram p).map decode = p.map fun q => .instr q.2

/-- O54. From a state that runs the words of an accepted program, with no fault latched and the pc at an instruction or at
the end: after a step a latched fault is MisalignedAccess or OutOfBounds, and the pc is again at an instruction or at
the end unless the instruction executed was BR. (R283, R305, R306, R307, R309) -/
def Obligations.AssembledProgramsFaultOnlyOnDataAndStrayOnlyThroughBr : Prop :=
  ∀ (source : List Char) (p : List (Nat × Instr)) (s t : State), parse source = .ok p → s.prog = wordsOfProgram p →
    s.fault = none → s.pcOnBoundary → step s = .next t →
    (∀ f, t.fault = some f → f.code = .misalignedAccess ∨ f.code = .outOfBounds) ∧
    (t.pcOnBoundary ∨ ∃ rn, t.lastInstr = some (.instr (.br rn)))

/-- O55. get_state leaves the state as it was and gives pc, x[0] to x[31] with x[31] = 0, counters, halted, flags, latch,
last_instr; halt sets halted and nothing else; load_program replaces PROG when no step has been requested since reset
and the program has at most MAX_PROG words, and is refused with no effect otherwise. (That the first step is read off
the recorded answer is the model's: log entries 6, 9.) (R362, R366, R367, R345) -/
def Obligations.HostRequestsDoWhatTheSpecSays : Prop :=
  ∀ (s : State) (p : List InstrWord),
    (serve .getState s).1 = s ∧
    (∃ g, (serve .getState s).2 = some (.snapshot g) ∧ g.pc = s.pc ∧ g.regs.length = 32 ∧
      (∀ r : RegIdx, g.regs[r.toNat]? = some (s.x r)) ∧ g.instrCount = s.instrCount ∧ g.cycleCount = s.cycleCount ∧
      g.halted = s.halted ∧ g.flags = s.flags ∧ g.fault = s.fault ∧ g.lastInstr = s.lastInstr) ∧
    (serve .halt s).1 = { s with halted := true } ∧
    (s.outcome = none → p.length ≤ Config.maxProg → (serve (.loadProgram p) s).1 = { s with prog := p }) ∧
    (s.outcome ≠ none ∨ Config.maxProg < p.length →
      (serve (.loadProgram p) s).1 = s ∧ (serve (.loadProgram p) s).2 = some .loadRefused)

/-- O56. For every bound n and state, runAll ends in the state after some k <= n steps, all answered Ok but perhaps the
last; and if k < n then k > 0 and the last answer was not Ok. (R368, R288) -/
def Obligations.RunAllStopsAtTheFirstOtherOutcomeOrTheBound : Prop :=
  ∀ (n : Nat) (s : State), ∃ k ≤ n, Host.Core.run Sys2Proof.core k s = .next (runAll n s) ∧
    (∀ j, 0 < j → j < k → ∃ u, Host.Core.run Sys2Proof.core j s = .next u ∧ u.outcome = some .ok) ∧
    (k < n → 0 < k ∧ (runAll n s).outcome ≠ some .ok)
end

