-- ==== Sys2Proof/Laws/Arith.lean ====
section
/-! SUPPORT. The operand arithmetic in bit-vector and in signed form. -/

namespace Sys2Proof.Machine

/-- `wrap64` is the formula of 00_scope R16. -/
theorem toInt_wrap64 (z : Int) : (wrap64 z).toInt = (z + 2 ^ 63) % 2 ^ 64 - 2 ^ 63 := by
  unfold wrap64
  rw [BitVec.toInt_ofInt, Int.bmod_def]
  split <;> omega

/-- `wrap32` is the formula of 00_scope R16. -/
theorem wrap32_eq (z : Int) : wrap32 z = (z + 2 ^ 31) % 2 ^ 32 - 2 ^ 31 := by
  unfold wrap32
  rw [BitVec.toInt_ofInt, Int.bmod_def]
  split <;> omega

@[simp] theorem wrap64_toInt (v : Word) : wrap64 v.toInt = v := BitVec.ofInt_toInt

theorem wrap64_add (a b : Word) : wrap64 (a.toInt + b.toInt) = a + b := by
  unfold wrap64; rw [BitVec.ofInt_add, BitVec.ofInt_toInt, BitVec.ofInt_toInt]

theorem wrap64_sub (a b : Word) : wrap64 (a.toInt - b.toInt) = a - b := by
  unfold wrap64; rw [Int.sub_eq_add_neg, BitVec.ofInt_add, BitVec.ofInt_neg]
  simp [BitVec.sub_eq_add_neg]

theorem wrap64_mul (a b : Word) : wrap64 (a.toInt * b.toInt) = a * b := by
  unfold wrap64; rw [BitVec.ofInt_mul, BitVec.ofInt_toInt, BitVec.ofInt_toInt]

/-- The next instruction's address, modulo 2^64 (10_state R40). -/
theorem nextPc_eq (pc : Word) : nextPc pc = pc + 4 := by
  unfold nextPc wrap64; rw [BitVec.ofInt_add, BitVec.ofInt_toInt]; rfl

theorem immPattern_eq (imm : Imm) : immPattern imm = imm.signExtend 64 := rfl

theorem immValue_bounds (imm : Imm) : -2048 ≤ immValue imm ∧ immValue imm ≤ 2047 := by
  have h := BitVec.toInt_lt (x := imm); have h' := BitVec.le_toInt (x := imm)
  unfold immValue; omega

theorem shiftAmount_lt (v : Word) : shiftAmount v < 64 := Nat.mod_lt _ (by decide)

theorem shiftLeft_eq (a b : Word) : shiftLeft a b = a <<< (b.toNat % 64) := by
  unfold shiftLeft wrap64 shiftAmount u64
  rw [BitVec.ofInt_mul, BitVec.ofInt_toInt, BitVec.shiftLeft_eq_mul_twoPow]
  congr 1
  apply BitVec.eq_of_toNat_eq
  have h : ((2 : Int) ^ (b.toNat % 64)) = ((2 ^ (b.toNat % 64) : Nat) : Int) := by norm_cast
  rw [h, BitVec.ofInt_natCast]
  simp [BitVec.toNat_twoPow]

theorem shiftRight_eq (a b : Word) : shiftRight a b = a >>> (b.toNat % 64) := by
  unfold shiftRight wrap64 shiftAmount u64
  rw [BitVec.ofInt_natCast]
  apply BitVec.eq_of_toNat_eq
  rw [BitVec.toNat_ofNat, BitVec.toNat_ushiftRight, Nat.shiftRight_eq_div_pow]
  exact Nat.mod_eq_of_lt (lt_of_le_of_lt (Nat.div_le_self _ _) a.isLt)

/-- MOVK as a concatenation: the upper 48 bits of the old value, then the immediate in 16 bits
(41_itype_immediate R209). -/
theorem keepUpper_eq (old : Word) (imm : Imm) :
    keepUpper old imm = (old.extractLsb' 16 48 ++ imm.signExtend 16 : Word) := by
  unfold keepUpper wrap64 u64 immValue
  apply BitVec.eq_of_toNat_eq
  have h16 : imm.toInt % 2 ^ 16 = ((imm.signExtend 16).toNat : Int) := by
    rw [BitVec.signExtend, BitVec.toNat_ofInt]
    have : 0 ≤ imm.toInt % (2 ^ 16 : Int) := Int.emod_nonneg _ (by decide)
    exact (Int.toNat_of_nonneg this).symm
  have hb := (imm.signExtend 16).isLt
  have ho := old.isLt
  have hz : ((old.toNat : Int) - (old.toNat % 2 ^ 16 : Nat) + ((imm.signExtend 16).toNat : Int)) =
      ((old.toNat / 2 ^ 16 * 2 ^ 16 + (imm.signExtend 16).toNat : Nat) : Int) := by omega
  rw [h16, hz, BitVec.ofInt_natCast, BitVec.toNat_ofNat, BitVec.toNat_append,
    BitVec.extractLsb'_toNat, Nat.shiftRight_eq_div_pow, Nat.shiftLeft_eq]
  have hd : old.toNat / 2 ^ 16 < 2 ^ 48 := by omega
  rw [Nat.mod_eq_of_lt hd, Nat.mul_comm _ (2 ^ 16), ← Nat.two_pow_add_eq_or_of_lt hb]
  omega

/-- A branch target is 4 times the index: it never wraps (30_encoding R133). -/
theorem toInt_targetAddress {w : Nat} (h : w ≤ 24) (tidx : BitVec w) :
    (targetAddress tidx).toInt = 4 * tidx.toNat := by
  have hlt : tidx.toNat < 2 ^ 24 := lt_of_lt_of_le tidx.isLt (Nat.pow_le_pow_right (by decide) h)
  unfold targetAddress
  rw [toInt_wrap64]
  omega

end Sys2Proof.Machine
end

