-- ==== Sys2Proof/Laws/Decode.lean ====
section
/-! SUPPORT. The fields of each word format (30_encoding R121 to R128): what the decoder cuts out of an encoded word, and that
the fields make the word again. -/

namespace Sys2Proof

/-! ### R-format -/

@[simp] theorem encodeR_op (op : BitVec 8) (rd rn rm : RegIdx) : BitVec.extractLsb' 24 8 (encodeR op rd rn rm) = op := by
  apply BitVec.eq_of_getLsbD_eq; intro k hk
  simp only [encodeR, BitVec.getLsbD_extractLsb', BitVec.getLsbD_append]
  interval_cases k <;> simp

@[simp] theorem encodeR_zero_21 (op : BitVec 8) (rd rn rm : RegIdx) : BitVec.extractLsb' 21 3 (encodeR op rd rn rm) = 0 := by
  apply BitVec.eq_of_getLsbD_eq; intro k hk
  simp only [encodeR, BitVec.getLsbD_extractLsb', BitVec.getLsbD_append]
  interval_cases k <;> simp

@[simp] theorem encodeR_rm (op : BitVec 8) (rd rn rm : RegIdx) : BitVec.extractLsb' 16 5 (encodeR op rd rn rm) = rm := by
  apply BitVec.eq_of_getLsbD_eq; intro k hk
  simp only [encodeR, BitVec.getLsbD_extractLsb', BitVec.getLsbD_append]
  interval_cases k <;> simp

@[simp] theorem encodeR_zero_10 (op : BitVec 8) (rd rn rm : RegIdx) : BitVec.extractLsb' 10 6 (encodeR op rd rn rm) = 0 := by
  apply BitVec.eq_of_getLsbD_eq; intro k hk
  simp only [encodeR, BitVec.getLsbD_extractLsb', BitVec.getLsbD_append]
  interval_cases k <;> simp

@[simp] theorem encodeR_rn (op : BitVec 8) (rd rn rm : RegIdx) : BitVec.extractLsb' 5 5 (encodeR op rd rn rm) = rn := by
  apply BitVec.eq_of_getLsbD_eq; intro k hk
  simp only [encodeR, BitVec.getLsbD_extractLsb', BitVec.getLsbD_append]
  interval_cases k <;> simp

@[simp] theorem encodeR_rd (op : BitVec 8) (rd rn rm : RegIdx) : BitVec.extractLsb' 0 5 (encodeR op rd rn rm) = rd := by
  apply BitVec.eq_of_getLsbD_eq; intro k hk
  simp only [encodeR, BitVec.getLsbD_extractLsb', BitVec.getLsbD_append]
  interval_cases k <;> simp

/-! ### I-format -/

@[simp] theorem encodeI_op (op : BitVec 8) (rd rn : RegIdx) (imm : Imm) : BitVec.extractLsb' 24 8 (encodeI op rd rn imm) = op := by
  apply BitVec.eq_of_getLsbD_eq; intro k hk
  simp only [encodeI, BitVec.getLsbD_extractLsb', BitVec.getLsbD_append]
  interval_cases k <;> simp

@[simp] theorem encodeI_zero_22 (op : BitVec 8) (rd rn : RegIdx) (imm : Imm) : BitVec.extractLsb' 22 2 (encodeI op rd rn imm) = 0 := by
  apply BitVec.eq_of_getLsbD_eq; intro k hk
  simp only [encodeI, BitVec.getLsbD_extractLsb', BitVec.getLsbD_append]
  interval_cases k <;> simp

@[simp] theorem encodeI_imm (op : BitVec 8) (rd rn : RegIdx) (imm : Imm) : BitVec.extractLsb' 10 12 (encodeI op rd rn imm) = imm := by
  apply BitVec.eq_of_getLsbD_eq; intro k hk
  simp only [encodeI, BitVec.getLsbD_extractLsb', BitVec.getLsbD_append]
  interval_cases k <;> simp

@[simp] theorem encodeI_rn (op : BitVec 8) (rd rn : RegIdx) (imm : Imm) : BitVec.extractLsb' 5 5 (encodeI op rd rn imm) = rn := by
  apply BitVec.eq_of_getLsbD_eq; intro k hk
  simp only [encodeI, BitVec.getLsbD_extractLsb', BitVec.getLsbD_append]
  interval_cases k <;> simp

@[simp] theorem encodeI_rd (op : BitVec 8) (rd rn : RegIdx) (imm : Imm) : BitVec.extractLsb' 0 5 (encodeI op rd rn imm) = rd := by
  apply BitVec.eq_of_getLsbD_eq; intro k hk
  simp only [encodeI, BitVec.getLsbD_extractLsb', BitVec.getLsbD_append]
  interval_cases k <;> simp

/-! ### BR-format -/

@[simp] theorem encodeBR_op (rn : RegIdx) : BitVec.extractLsb' 24 8 (encodeBR rn) = 0x33 := by
  apply BitVec.eq_of_getLsbD_eq; intro k hk
  simp only [encodeBR, BitVec.getLsbD_extractLsb', BitVec.getLsbD_append]
  interval_cases k <;> simp

@[simp] theorem encodeBR_zero_10 (rn : RegIdx) : BitVec.extractLsb' 10 14 (encodeBR rn) = 0 := by
  apply BitVec.eq_of_getLsbD_eq; intro k hk
  simp only [encodeBR, BitVec.getLsbD_extractLsb', BitVec.getLsbD_append]
  interval_cases k <;> simp

@[simp] theorem encodeBR_rn (rn : RegIdx) : BitVec.extractLsb' 5 5 (encodeBR rn) = rn := by
  apply BitVec.eq_of_getLsbD_eq; intro k hk
  simp only [encodeBR, BitVec.getLsbD_extractLsb', BitVec.getLsbD_append]
  interval_cases k <;> simp

@[simp] theorem encodeBR_zero_0 (rn : RegIdx) : BitVec.extractLsb' 0 5 (encodeBR rn) = 0 := by
  apply BitVec.eq_of_getLsbD_eq; intro k hk
  simp only [encodeBR, BitVec.getLsbD_extractLsb', BitVec.getLsbD_append]
  interval_cases k <;> simp

/-! ### CC-format -/

@[simp] theorem encodeCC_op (cond : BitVec 4) (tidx : BitVec 19) : BitVec.extractLsb' 24 8 (encodeCC cond tidx) = 0x36 := by
  apply BitVec.eq_of_getLsbD_eq; intro k hk
  simp only [encodeCC, BitVec.getLsbD_extractLsb', BitVec.getLsbD_append]
  interval_cases k <;> simp

@[simp] theorem encodeCC_tidx (cond : BitVec 4) (tidx : BitVec 19) : BitVec.extractLsb' 5 19 (encodeCC cond tidx) = tidx := by
  apply BitVec.eq_of_getLsbD_eq; intro k hk
  simp only [encodeCC, BitVec.getLsbD_extractLsb', BitVec.getLsbD_append]
  interval_cases k <;> simp

@[simp] theorem encodeCC_zero_4 (cond : BitVec 4) (tidx : BitVec 19) : BitVec.extractLsb' 4 1 (encodeCC cond tidx) = 0 := by
  apply BitVec.eq_of_getLsbD_eq; intro k hk
  simp only [encodeCC, BitVec.getLsbD_extractLsb', BitVec.getLsbD_append]
  interval_cases k; simp

@[simp] theorem encodeCC_cond (cond : BitVec 4) (tidx : BitVec 19) : BitVec.extractLsb' 0 4 (encodeCC cond tidx) = cond := by
  apply BitVec.eq_of_getLsbD_eq; intro k hk
  simp only [encodeCC, BitVec.getLsbD_extractLsb', BitVec.getLsbD_append]
  interval_cases k <;> simp

/-! ### B-format -/

@[simp] theorem bWord_op (op : BitVec 8) (tidx : BitVec 24) : BitVec.extractLsb' 24 8 ((op ++ tidx : InstrWord)) = op := by
  apply BitVec.eq_of_getLsbD_eq; intro k hk
  simp only [BitVec.getLsbD_extractLsb', BitVec.getLsbD_append]
  interval_cases k <;> simp

@[simp] theorem bWord_tidx (op : BitVec 8) (tidx : BitVec 24) : BitVec.extractLsb' 0 24 ((op ++ tidx : InstrWord)) = tidx := by
  apply BitVec.eq_of_getLsbD_eq; intro k hk
  simp only [BitVec.getLsbD_extractLsb', BitVec.getLsbD_append]
  interval_cases k <;> simp

/-! ### CB-format -/

@[simp] theorem cbWord_op (op : BitVec 8) (tidx : BitVec 19) (rt : RegIdx) : BitVec.extractLsb' 24 8 ((op ++ tidx ++ rt : InstrWord)) = op := by
  apply BitVec.eq_of_getLsbD_eq; intro k hk
  simp only [BitVec.getLsbD_extractLsb', BitVec.getLsbD_append]
  interval_cases k <;> simp

@[simp] theorem cbWord_tidx (op : BitVec 8) (tidx : BitVec 19) (rt : RegIdx) : BitVec.extractLsb' 5 19 ((op ++ tidx ++ rt : InstrWord)) = tidx := by
  apply BitVec.eq_of_getLsbD_eq; intro k hk
  simp only [BitVec.getLsbD_extractLsb', BitVec.getLsbD_append]
  interval_cases k <;> simp

@[simp] theorem cbWord_rt (op : BitVec 8) (tidx : BitVec 19) (rt : RegIdx) : BitVec.extractLsb' 0 5 ((op ++ tidx ++ rt : InstrWord)) = rt := by
  apply BitVec.eq_of_getLsbD_eq; intro k hk
  simp only [BitVec.getLsbD_extractLsb', BitVec.getLsbD_append]
  interval_cases k <;> simp

/-! ### The fields make the word -/

theorem word_of_fields_R (w : InstrWord) : (w.extractLsb' 24 8 ++ w.extractLsb' 21 3 ++ w.extractLsb' 16 5 ++
    w.extractLsb' 10 6 ++ w.extractLsb' 5 5 ++ w.extractLsb' 0 5 : InstrWord) = w := by
  apply BitVec.eq_of_getLsbD_eq; intro k hk
  simp only [BitVec.getLsbD_extractLsb', BitVec.getLsbD_append]
  interval_cases k <;> simp

theorem word_of_fields_I (w : InstrWord) : (w.extractLsb' 24 8 ++ w.extractLsb' 22 2 ++ w.extractLsb' 10 12 ++
    w.extractLsb' 5 5 ++ w.extractLsb' 0 5 : InstrWord) = w := by
  apply BitVec.eq_of_getLsbD_eq; intro k hk
  simp only [BitVec.getLsbD_extractLsb', BitVec.getLsbD_append]
  interval_cases k <;> simp

theorem word_of_fields_BR (w : InstrWord) : (w.extractLsb' 24 8 ++ w.extractLsb' 10 14 ++ w.extractLsb' 5 5 ++
    w.extractLsb' 0 5 : InstrWord) = w := by
  apply BitVec.eq_of_getLsbD_eq; intro k hk
  simp only [BitVec.getLsbD_extractLsb', BitVec.getLsbD_append]
  interval_cases k <;> simp

theorem word_of_fields_CC (w : InstrWord) : (w.extractLsb' 24 8 ++ w.extractLsb' 5 19 ++ w.extractLsb' 4 1 ++
    w.extractLsb' 0 4 : InstrWord) = w := by
  apply BitVec.eq_of_getLsbD_eq; intro k hk
  simp only [BitVec.getLsbD_extractLsb', BitVec.getLsbD_append]
  interval_cases k <;> simp

theorem word_of_fields_B (w : InstrWord) : (w.extractLsb' 24 8 ++ w.extractLsb' 0 24 : InstrWord) = w := by
  apply BitVec.eq_of_getLsbD_eq; intro k hk
  simp only [BitVec.getLsbD_extractLsb', BitVec.getLsbD_append]
  interval_cases k <;> simp

theorem word_of_fields_CB (w : InstrWord) : (w.extractLsb' 24 8 ++ w.extractLsb' 5 19 ++ w.extractLsb' 0 5 : InstrWord) = w := by
  apply BitVec.eq_of_getLsbD_eq; intro k hk
  simp only [BitVec.getLsbD_extractLsb', BitVec.getLsbD_append]
  interval_cases k <;> simp

/-! ### Words as numbers (30_encoding R139) -/

theorem toNat_append_eq {m n : Nat} (a : BitVec m) (b : BitVec n) :
    BitVec.toNat (w := m + n) (a ++ b) = a.toNat * 2 ^ n + b.toNat := by
  rw [BitVec.toNat_append, Nat.shiftLeft_eq, Nat.mul_comm a.toNat, ← Nat.two_pow_add_eq_or_of_lt b.isLt]

theorem toNat_encodeR (op : BitVec 8) (rd rn rm : RegIdx) :
    (encodeR op rd rn rm).toNat = op.toNat * 2 ^ 24 + (rm.toNat * 2 ^ 16 + rn.toNat * 2 ^ 5 + rd.toNat) := by
  have h : (encodeR op rd rn rm).toNat = (((((op.toNat * 2 ^ 3 + (0#3).toNat) * 2 ^ 5 + rm.toNat) * 2 ^ 6 +
      (0#6).toNat) * 2 ^ 5 + rn.toNat) * 2 ^ 5 + rd.toNat) := by
    unfold encodeR; rw [← toNat_append_eq, ← toNat_append_eq, ← toNat_append_eq, ← toNat_append_eq, ← toNat_append_eq]
  rw [h]; simp; omega

theorem toNat_encodeI (op : BitVec 8) (rd rn : RegIdx) (imm : Imm) :
    (encodeI op rd rn imm).toNat = op.toNat * 2 ^ 24 + (imm.toNat * 2 ^ 10 + rn.toNat * 2 ^ 5 + rd.toNat) := by
  have h : (encodeI op rd rn imm).toNat = ((((op.toNat * 2 ^ 2 + (0#2).toNat) * 2 ^ 12 + imm.toNat) * 2 ^ 5 +
      rn.toNat) * 2 ^ 5 + rd.toNat) := by
    unfold encodeI; rw [← toNat_append_eq, ← toNat_append_eq, ← toNat_append_eq, ← toNat_append_eq]
  rw [h]; simp; omega

theorem toNat_encodeBR (rn : RegIdx) : (encodeBR rn).toNat = 0x33 * 2 ^ 24 + rn.toNat * 2 ^ 5 := by
  have h : (encodeBR rn).toNat = (((0x33#8).toNat * 2 ^ 14 + (0#14).toNat) * 2 ^ 5 + rn.toNat) * 2 ^ 5 +
      (0#5).toNat := by
    unfold encodeBR; rw [← toNat_append_eq, ← toNat_append_eq, ← toNat_append_eq]
  rw [h]; simp; omega

theorem toNat_encodeCC (cond : BitVec 4) (tidx : BitVec 19) :
    (encodeCC cond tidx).toNat = 0x36 * 2 ^ 24 + (tidx.toNat * 2 ^ 5 + cond.toNat) := by
  have h : (encodeCC cond tidx).toNat = (((0x36#8).toNat * 2 ^ 19 + tidx.toNat) * 2 ^ 1 + (0#1).toNat) * 2 ^ 4 +
      cond.toNat := by
    unfold encodeCC; rw [← toNat_append_eq, ← toNat_append_eq, ← toNat_append_eq]
  rw [h]; simp; omega

theorem toNat_bWord (op : BitVec 8) (tidx : BitVec 24) :
    (op ++ tidx : InstrWord).toNat = op.toNat * 2 ^ 24 + tidx.toNat := toNat_append_eq _ _

theorem toNat_cbWord (op : BitVec 8) (tidx : BitVec 19) (rt : RegIdx) :
    (op ++ tidx ++ rt : InstrWord).toNat = op.toNat * 2 ^ 24 + (tidx.toNat * 2 ^ 5 + rt.toNat) := by
  have h : (op ++ tidx ++ rt : InstrWord).toNat = (op.toNat * 2 ^ 19 + tidx.toNat) * 2 ^ 5 + rt.toNat := by
    rw [← toNat_append_eq, ← toNat_append_eq]
  rw [h]; omega

/-! ### Formats -/

@[simp] theorem decodeR_encodeR (op : BitVec 8) (rd rn rm : RegIdx) (f : RegIdx → RegIdx → RegIdx → Instr) :
    decodeR (encodeR op rd rn rm) f = .instr (f rd rn rm) := by
  simp [decodeR]

@[simp] theorem decodeI_encodeI (op : BitVec 8) (rd rn : RegIdx) (imm : Imm) (f : RegIdx → RegIdx → Imm → Instr) :
    decodeI (encodeI op rd rn imm) f = .instr (f rd rn imm) := by
  simp [decodeI]

@[simp] theorem decodeIM_encodeIM (op : BitVec 8) (rd : RegIdx) (imm : Imm) (f : RegIdx → Imm → Instr) :
    decodeIM (encodeIM op rd imm) f = .instr (f rd imm) := by
  simp [decodeIM, encodeIM]

@[simp] theorem decodeB_bWord (op : BitVec 8) (tidx : BitVec 24) (f : Target 24 → Instr) :
    decodeB (op ++ tidx : InstrWord) f = .instr (f (.resolved tidx)) := by
  simp [decodeB]

@[simp] theorem decodeBR_encodeBR (rn : RegIdx) : decodeBR (encodeBR rn) = .instr (.br rn) := by
  simp [decodeBR]

@[simp] theorem decodeCB_cbWord (op : BitVec 8) (tidx : BitVec 19) (rt : RegIdx) (f : RegIdx → Target 19 → Instr) :
    decodeCB (op ++ tidx ++ rt : InstrWord) f = .instr (f rt (.resolved tidx)) := by
  simp [decodeCB]

@[simp] theorem condOfBits_bits (c : Cond) : condOfBits c.bits = some c := by cases c <;> rfl

theorem bits_of_condOfBits {b : BitVec 4} {c : Cond} (h : condOfBits b = some c) : c.bits = b := by
  revert b c; decide

@[simp] theorem decodeCC_encodeCond (c : Cond) (tidx : BitVec 19) :
    decodeCC (encodeCC c.bits tidx) = .instr (.bCond (.resolved tidx) c) := by
  simp [decodeCC]

/-- A decoded CondB word, and the same word encoded. -/
theorem encode_bCond (t : Target 19) (c : Cond) : encode (.bCond t c) = encodeCond c t := by cases c <;> rfl

/-! ### Bytes -/

theorem word_of_bytes (w : InstrWord) : (w.extractLsb' 24 8 ++ w.extractLsb' 16 8 ++ w.extractLsb' 8 8 ++
    w.extractLsb' 0 8 : InstrWord) = w := by
  apply BitVec.eq_of_getLsbD_eq; intro k hk
  simp only [BitVec.getLsbD_extractLsb', BitVec.getLsbD_append]
  interval_cases k <;> simp

/-- Decoding the stored bytes of a word is decoding the word (30_encoding R161). -/
theorem decodeBytes_bytesOfWord (w : InstrWord) (rest : List Byte) :
    decodeBytes (bytesOfWord w ++ rest) = some (decode w, rest) := by
  simp only [bytesOfWord, List.cons_append, List.nil_append, decodeBytes, word_of_bytes]

end Sys2Proof
end

