-- ==== Sys2Proof/Laws/Memory.lean ====
section
/-! SUPPORT. Data memory: what a byte reads after a write, and that every operation keeps the canonical form. -/

namespace Sys2Proof.Machine

/-! ### One byte -/

theorem byte_filter_ne (m : Memory) (a c : Nat) (h : c ≠ a) :
    Memory.byte (m.filter (fun p => p.1 != a)) c = m.byte c := by
  induction m with
  | nil => rfl
  | cons p rest ih =>
    obtain ⟨k, b⟩ := p
    by_cases hk : k = a
    · subst hk; simp [Memory.byte, ih, Ne.symm h]
    · simp [hk, Memory.byte, ih]

theorem byte_filter_self (m : Memory) (a : Nat) :
    Memory.byte (m.filter (fun p => p.1 != a)) a = 0 := by
  induction m with
  | nil => rfl
  | cons p rest ih =>
    obtain ⟨k, b⟩ := p
    by_cases hk : k = a
    · simp [hk, ih]
    · simp [hk, Memory.byte, ih]

theorem byte_insertByte_ne (m : Memory) (a c : Nat) (b : Byte) (h : c ≠ a) :
    (Memory.insertByte m a b).byte c = m.byte c := by
  induction m with
  | nil => simp [Memory.insertByte, Memory.byte, Ne.symm h]
  | cons p rest ih =>
    obtain ⟨k, d⟩ := p
    unfold Memory.insertByte
    split
    · simp [Memory.byte, Ne.symm h]
    · simp [Memory.byte, ih]

theorem byte_insertByte_self (m : Memory) (a : Nat) (b : Byte) (h : ∀ p ∈ m, p.1 ≠ a) :
    (Memory.insertByte m a b).byte a = b := by
  induction m with
  | nil => simp [Memory.insertByte, Memory.byte]
  | cons p rest ih =>
    obtain ⟨k, d⟩ := p
    have hk : k ≠ a := h (k, d) List.mem_cons_self
    unfold Memory.insertByte
    split
    · simp [Memory.byte]
    · simp [Memory.byte, hk, ih (fun q hq => h q (List.mem_cons_of_mem _ hq))]

/-- A byte after a byte write: the written byte at its address, the old byte elsewhere (20_memory R73). -/
theorem byte_setByte (m : Memory) (a c : Nat) (b : Byte) :
    (m.setByte a b).byte c = if c = a then b else m.byte c := by
  unfold Memory.setByte
  by_cases hc : c = a
  · subst hc
    by_cases hb : b = 0
    · simp [hb, byte_filter_self]
    · rw [if_neg hb, if_pos rfl, byte_insertByte_self]
      intro p hp; simpa using (List.mem_filter.mp hp).2
  · by_cases hb : b = 0
    · simp [hb, hc, byte_filter_ne _ _ _ hc]
    · rw [if_neg hb, if_neg hc, byte_insertByte_ne _ _ _ _ hc, byte_filter_ne _ _ _ hc]

/-! ### Canonical form -/

theorem mem_insertByte {m : Memory} {a : Nat} {b : Byte} {p : Host.Cell} :
    p ∈ Memory.insertByte m a b ↔ p = (a, b) ∨ p ∈ m := by
  induction m with
  | nil => simp [Memory.insertByte]
  | cons q rest ih =>
    obtain ⟨k, d⟩ := q
    unfold Memory.insertByte
    split
    · simp
    · simp [ih]; tauto

theorem pairwise_insertByte {m : Memory} {a : Nat} {b : Byte} (hm : m.Pairwise (fun p q => p.1 < q.1))
    (ha : ∀ p ∈ m, p.1 ≠ a) : (Memory.insertByte m a b).Pairwise (fun p q => p.1 < q.1) := by
  induction m with
  | nil => simp [Memory.insertByte]
  | cons q rest ih =>
    obtain ⟨k, d⟩ := q
    obtain ⟨hq, hrest⟩ := List.pairwise_cons.mp hm
    have hk : k ≠ a := ha (k, d) List.mem_cons_self
    unfold Memory.insertByte
    split
    · rename_i hlt
      refine List.pairwise_cons.mpr ⟨fun p hp => ?_, hm⟩
      rcases List.mem_cons.mp hp with rfl | hp
      · exact hlt
      · exact lt_trans hlt (hq p hp)
    · refine List.pairwise_cons.mpr
        ⟨fun p hp => ?_, ih hrest (fun p hp => ha p (List.mem_cons_of_mem _ hp))⟩
      rcases mem_insertByte.mp hp with rfl | hp
      · show k < a; omega
      · exact hq p hp

/-- A byte write keeps the canonical form. -/
theorem wf_setByte {m : Memory} (hm : m.wf) (a : Nat) (b : Byte) : (m.setByte a b).wf := by
  have hf : (m.filter (fun p => p.1 != a)).Pairwise (fun p q => p.1 < q.1) := hm.1.filter _
  have hz : ∀ p ∈ m.filter (fun p => p.1 != a), p.2 ≠ 0 := fun p hp => hm.2 p (List.mem_of_mem_filter hp)
  unfold Memory.setByte
  split
  · exact ⟨hf, hz⟩
  · rename_i hb
    refine ⟨pairwise_insertByte hf fun p hp => by simpa using (List.mem_filter.mp hp).2, fun p hp => ?_⟩
    rcases mem_insertByte.mp hp with rfl | hp
    · exact hb
    · exact hz p hp

theorem within_setByte {m : Memory} {cap : Nat} (hm : m.within cap) {a : Nat} (ha : a < cap) (b : Byte) :
    (m.setByte a b).within cap := by
  have hf : ∀ p ∈ m.filter (fun p => p.1 != a), p.1 < cap := fun p hp => hm p (List.mem_of_mem_filter hp)
  unfold Memory.setByte
  split
  · exact hf
  · intro p hp
    rcases mem_insertByte.mp hp with rfl | hp
    · exact ha
    · exact hf p hp

/-- Equal bytes everywhere make equal memories in canonical form. -/
theorem byte_of_mem {m : Memory} (hm : m.Pairwise (fun p q => p.1 < q.1)) {p : Host.Cell} (hp : p ∈ m) :
    m.byte p.1 = p.2 := by
  induction m with
  | nil => simp at hp
  | cons q rest ih =>
    obtain ⟨k, b⟩ := q
    obtain ⟨hq, hrest⟩ := List.pairwise_cons.mp hm
    rcases List.mem_cons.mp hp with rfl | hp
    · simp [Memory.byte]
    · have : k ≠ p.1 := Nat.ne_of_lt (hq p hp)
      simp [Memory.byte, this, ih hrest hp]

/-! ### Several bytes -/

/-- A byte after a multi-byte write: byte `c - a` of the value inside the `n` bytes, the old byte outside
(20_memory R76, R78). -/
theorem byte_writeLE (m : Memory) (a n v c : Nat) :
    (m.writeLE a n v).byte c =
      if a ≤ c ∧ c < a + n then BitVec.ofNat 8 (v / 256 ^ (c - a)) else m.byte c := by
  induction n generalizing m a v with
  | zero => simp [Memory.writeLE]
  | succ n ih =>
    rw [Memory.writeLE, ih, byte_setByte]
    by_cases hc : c = a
    · subst hc; simp
    · by_cases hlt : a + 1 ≤ c ∧ c < a + 1 + n
      · have h2 : a ≤ c ∧ c < a + (n + 1) := by omega
        have hs : c - a = (c - (a + 1)) + 1 := by omega
        rw [if_pos hlt, if_pos h2, hs, pow_succ', Nat.div_div_eq_div_mul]
      · have h2 : ¬ (a ≤ c ∧ c < a + (n + 1)) := by omega
        rw [if_neg hlt, if_neg h2, if_neg hc]

theorem wf_writeLE {m : Memory} (hm : m.wf) (a n v : Nat) : (m.writeLE a n v).wf := by
  induction n generalizing m a v with
  | zero => exact hm
  | succ n ih => exact ih (wf_setByte hm _ _) _ _

theorem within_writeLE {m : Memory} {cap : Nat} (hm : m.within cap) {a n : Nat} (h : a + n ≤ cap) (v : Nat) :
    (m.writeLE a n v).within cap := by
  induction n generalizing m a v with
  | zero => exact hm
  | succ n ih => exact ih (within_setByte hm (by omega) _) (by omega) _

/-- A multi-byte read depends on its bytes alone. -/
theorem readLE_congr {m m' : Memory} {a n : Nat} (h : ∀ k < n, m'.byte (a + k) = m.byte (a + k)) :
    m'.readLE a n = m.readLE a n := by
  induction n generalizing a with
  | zero => rfl
  | succ n ih =>
    have h0 : m'.byte a = m.byte a := h 0 (by omega)
    have hs : ∀ k < n, m'.byte (a + 1 + k) = m.byte (a + 1 + k) := fun k hk => by
      have := h (k + 1) (by omega)
      rwa [show a + (k + 1) = a + 1 + k by omega] at this
    rw [Memory.readLE, Memory.readLE, h0, ih hs]

/-- The bytes of a number, read back, give the number modulo their range. -/
theorem readLE_of_bytes {m : Memory} {a n v : Nat}
    (h : ∀ k < n, m.byte (a + k) = BitVec.ofNat 8 (v / 256 ^ k)) : m.readLE a n = v % 256 ^ n := by
  induction n generalizing a v with
  | zero => simp [Memory.readLE, Nat.mod_one]
  | succ n ih =>
    have h0 : m.byte a = BitVec.ofNat 8 v := by simpa using h 0 (by omega)
    have hs : ∀ k < n, m.byte (a + 1 + k) = BitVec.ofNat 8 (v / 256 / 256 ^ k) := fun k hk => by
      have := h (k + 1) (by omega)
      rwa [show a + (k + 1) = a + 1 + k by omega, pow_succ', ← Nat.div_div_eq_div_mul] at this
    rw [Memory.readLE, h0, ih hs, BitVec.toNat_ofNat, pow_succ' 256 n, Nat.mod_mul (a := 256)]

/-- A read after a write of the same bytes gives the low bits of the value (20_memory R85). -/
theorem readLE_writeLE (m : Memory) (a n v : Nat) : (m.writeLE a n v).readLE a n = v % 256 ^ n :=
  readLE_of_bytes fun k hk => by
    rw [byte_writeLE, if_pos (by omega), Nat.add_sub_cancel_left]

theorem readLE_lt (m : Memory) (a n : Nat) : m.readLE a n < 256 ^ n := by
  induction n generalizing a with
  | zero => simp [Memory.readLE]
  | succ n ih =>
    have := ih (a + 1); have := (m.byte a).isLt
    rw [Memory.readLE, pow_succ']; omega

/-- A multi-byte read as the sum of 20_memory R77. -/
theorem readLE_eq_sum (m : Memory) (a n : Nat) :
    m.readLE a n = ((List.range n).map fun k => (m.byte (a + k)).toNat * 2 ^ (8 * k)).sum := by
  induction n generalizing a with
  | zero => rfl
  | succ n ih =>
    rw [Memory.readLE, ih, List.range_succ_eq_map, List.map_cons, List.sum_cons, List.map_map,
      ← List.sum_map_mul_left]
    simp only [Nat.add_zero, Nat.mul_zero, pow_zero, Nat.mul_one]
    congr 3
    funext k
    simp only [Function.comp, Nat.succ_eq_add_one]
    rw [show a + 1 + k = a + (k + 1) by omega, show 8 * (k + 1) = 8 * k + 8 by ring, pow_add]
    ring

/-! ### Reset -/

theorem wf_reset : State.reset.mem.wf := by decide

theorem byte_nil (a : Nat) : Memory.byte [] a = 0 := rfl

end Sys2Proof.Machine
end

