-- ==== Sys2Proof/Laws/State.lean ====
section
/-! SUPPORT. One lemma per field per update of the state, so that no proof unfolds a record update. The values of the fields
of `State.reset` are at the end. -/

namespace Sys2Proof.Machine

variable (s : State)

/-! ### `State.begin` -/

@[simp] theorem State.begin_regs : s.begin.regs = s.regs := rfl
@[simp] theorem State.begin_pc : s.begin.pc = s.pc := rfl
@[simp] theorem State.begin_flags : s.begin.flags = s.flags := rfl
@[simp] theorem State.begin_mem : s.begin.mem = s.mem := rfl
@[simp] theorem State.begin_instrCount : s.begin.instrCount = s.instrCount := rfl
@[simp] theorem State.begin_cycleCount : s.begin.cycleCount = s.cycleCount := rfl
@[simp] theorem State.begin_halted : s.begin.halted = s.halted := rfl
@[simp] theorem State.begin_lastInstr : s.begin.lastInstr = s.lastInstr := rfl
@[simp] theorem State.begin_fault : s.begin.fault = s.fault := rfl
@[simp] theorem State.begin_prog : s.begin.prog = s.prog := rfl
@[simp] theorem State.begin_memCap : s.begin.memCap = s.memCap := rfl
@[simp] theorem State.begin_outcome : s.begin.outcome = s.outcome := rfl
@[simp] theorem State.begin_regChanges : s.begin.regChanges = [] := rfl
@[simp] theorem State.begin_memChanges : s.begin.memChanges = [] := rfl
@[simp] theorem State.begin_draws : s.begin.draws = s.draws := rfl

/-! ### `State.setFlags` -/

@[simp] theorem State.setFlags_regs (r : Word) : (s.setFlags r).regs = s.regs := rfl
@[simp] theorem State.setFlags_pc (r : Word) : (s.setFlags r).pc = s.pc := rfl
@[simp] theorem State.setFlags_flags (r : Word) : (s.setFlags r).flags = flagsOf r := rfl
@[simp] theorem State.setFlags_mem (r : Word) : (s.setFlags r).mem = s.mem := rfl
@[simp] theorem State.setFlags_instrCount (r : Word) : (s.setFlags r).instrCount = s.instrCount := rfl
@[simp] theorem State.setFlags_cycleCount (r : Word) : (s.setFlags r).cycleCount = s.cycleCount := rfl
@[simp] theorem State.setFlags_halted (r : Word) : (s.setFlags r).halted = s.halted := rfl
@[simp] theorem State.setFlags_lastInstr (r : Word) : (s.setFlags r).lastInstr = s.lastInstr := rfl
@[simp] theorem State.setFlags_fault (r : Word) : (s.setFlags r).fault = s.fault := rfl
@[simp] theorem State.setFlags_prog (r : Word) : (s.setFlags r).prog = s.prog := rfl
@[simp] theorem State.setFlags_memCap (r : Word) : (s.setFlags r).memCap = s.memCap := rfl
@[simp] theorem State.setFlags_outcome (r : Word) : (s.setFlags r).outcome = s.outcome := rfl
@[simp] theorem State.setFlags_regChanges (r : Word) : (s.setFlags r).regChanges = s.regChanges := rfl
@[simp] theorem State.setFlags_memChanges (r : Word) : (s.setFlags r).memChanges = s.memChanges := rfl
@[simp] theorem State.setFlags_draws (r : Word) : (s.setFlags r).draws = s.draws := rfl

/-! ### `State.reportMem` -/

@[simp] theorem State.reportMem_regs (k : AccessKind) (a v : Int) : (s.reportMem k a v).regs = s.regs := rfl
@[simp] theorem State.reportMem_pc (k : AccessKind) (a v : Int) : (s.reportMem k a v).pc = s.pc := rfl
@[simp] theorem State.reportMem_flags (k : AccessKind) (a v : Int) : (s.reportMem k a v).flags = s.flags := rfl
@[simp] theorem State.reportMem_mem (k : AccessKind) (a v : Int) : (s.reportMem k a v).mem = s.mem := rfl
@[simp] theorem State.reportMem_instrCount (k : AccessKind) (a v : Int) : (s.reportMem k a v).instrCount = s.instrCount := rfl
@[simp] theorem State.reportMem_cycleCount (k : AccessKind) (a v : Int) : (s.reportMem k a v).cycleCount = s.cycleCount := rfl
@[simp] theorem State.reportMem_halted (k : AccessKind) (a v : Int) : (s.reportMem k a v).halted = s.halted := rfl
@[simp] theorem State.reportMem_lastInstr (k : AccessKind) (a v : Int) : (s.reportMem k a v).lastInstr = s.lastInstr := rfl
@[simp] theorem State.reportMem_fault (k : AccessKind) (a v : Int) : (s.reportMem k a v).fault = s.fault := rfl
@[simp] theorem State.reportMem_prog (k : AccessKind) (a v : Int) : (s.reportMem k a v).prog = s.prog := rfl
@[simp] theorem State.reportMem_memCap (k : AccessKind) (a v : Int) : (s.reportMem k a v).memCap = s.memCap := rfl
@[simp] theorem State.reportMem_outcome (k : AccessKind) (a v : Int) : (s.reportMem k a v).outcome = s.outcome := rfl
@[simp] theorem State.reportMem_regChanges (k : AccessKind) (a v : Int) : (s.reportMem k a v).regChanges = s.regChanges := rfl
@[simp] theorem State.reportMem_memChanges (k : AccessKind) (a v : Int) : (s.reportMem k a v).memChanges = s.memChanges ++ [⟨k, a, v⟩] := rfl
@[simp] theorem State.reportMem_draws (k : AccessKind) (a v : Int) : (s.reportMem k a v).draws = s.draws := rfl

/-! ### `State.retireTo` -/

@[simp] theorem State.retireTo_regs (i : Instr) (p : Word) : (s.retireTo i p).regs = s.regs := rfl
@[simp] theorem State.retireTo_pc (i : Instr) (p : Word) : (s.retireTo i p).pc = p := rfl
@[simp] theorem State.retireTo_flags (i : Instr) (p : Word) : (s.retireTo i p).flags = s.flags := rfl
@[simp] theorem State.retireTo_mem (i : Instr) (p : Word) : (s.retireTo i p).mem = s.mem := rfl
@[simp] theorem State.retireTo_instrCount (i : Instr) (p : Word) : (s.retireTo i p).instrCount = s.instrCount + 1 := rfl
@[simp] theorem State.retireTo_cycleCount (i : Instr) (p : Word) : (s.retireTo i p).cycleCount = s.cycleCount + 1 := rfl
@[simp] theorem State.retireTo_halted (i : Instr) (p : Word) : (s.retireTo i p).halted = s.halted := rfl
@[simp] theorem State.retireTo_lastInstr (i : Instr) (p : Word) : (s.retireTo i p).lastInstr = some (.instr i) := rfl
@[simp] theorem State.retireTo_fault (i : Instr) (p : Word) : (s.retireTo i p).fault = s.fault := rfl
@[simp] theorem State.retireTo_prog (i : Instr) (p : Word) : (s.retireTo i p).prog = s.prog := rfl
@[simp] theorem State.retireTo_memCap (i : Instr) (p : Word) : (s.retireTo i p).memCap = s.memCap := rfl
@[simp] theorem State.retireTo_outcome (i : Instr) (p : Word) : (s.retireTo i p).outcome = some .ok := rfl
@[simp] theorem State.retireTo_regChanges (i : Instr) (p : Word) : (s.retireTo i p).regChanges = s.regChanges := rfl
@[simp] theorem State.retireTo_memChanges (i : Instr) (p : Word) : (s.retireTo i p).memChanges = s.memChanges := rfl
@[simp] theorem State.retireTo_draws (i : Instr) (p : Word) : (s.retireTo i p).draws = s.draws := rfl

/-! ### `State.retire` -/

@[simp] theorem State.retire_regs (i : Instr) : (s.retire i).regs = s.regs := rfl
@[simp] theorem State.retire_pc (i : Instr) : (s.retire i).pc = nextPc s.pc := rfl
@[simp] theorem State.retire_flags (i : Instr) : (s.retire i).flags = s.flags := rfl
@[simp] theorem State.retire_mem (i : Instr) : (s.retire i).mem = s.mem := rfl
@[simp] theorem State.retire_instrCount (i : Instr) : (s.retire i).instrCount = s.instrCount + 1 := rfl
@[simp] theorem State.retire_cycleCount (i : Instr) : (s.retire i).cycleCount = s.cycleCount + 1 := rfl
@[simp] theorem State.retire_halted (i : Instr) : (s.retire i).halted = s.halted := rfl
@[simp] theorem State.retire_lastInstr (i : Instr) : (s.retire i).lastInstr = some (.instr i) := rfl
@[simp] theorem State.retire_fault (i : Instr) : (s.retire i).fault = s.fault := rfl
@[simp] theorem State.retire_prog (i : Instr) : (s.retire i).prog = s.prog := rfl
@[simp] theorem State.retire_memCap (i : Instr) : (s.retire i).memCap = s.memCap := rfl
@[simp] theorem State.retire_outcome (i : Instr) : (s.retire i).outcome = some .ok := rfl
@[simp] theorem State.retire_regChanges (i : Instr) : (s.retire i).regChanges = s.regChanges := rfl
@[simp] theorem State.retire_memChanges (i : Instr) : (s.retire i).memChanges = s.memChanges := rfl
@[simp] theorem State.retire_draws (i : Instr) : (s.retire i).draws = s.draws := rfl

/-! ### `State.latch` -/

@[simp] theorem State.latch_regs (c : FaultCode) (a : Int) : (s.latch c a).regs = s.regs := rfl
@[simp] theorem State.latch_pc (c : FaultCode) (a : Int) : (s.latch c a).pc = s.pc := rfl
@[simp] theorem State.latch_flags (c : FaultCode) (a : Int) : (s.latch c a).flags = s.flags := rfl
@[simp] theorem State.latch_mem (c : FaultCode) (a : Int) : (s.latch c a).mem = s.mem := rfl
@[simp] theorem State.latch_instrCount (c : FaultCode) (a : Int) : (s.latch c a).instrCount = s.instrCount := rfl
@[simp] theorem State.latch_cycleCount (c : FaultCode) (a : Int) : (s.latch c a).cycleCount = s.cycleCount := rfl
@[simp] theorem State.latch_halted (c : FaultCode) (a : Int) : (s.latch c a).halted = s.halted := rfl
@[simp] theorem State.latch_lastInstr (c : FaultCode) (a : Int) : (s.latch c a).lastInstr = s.lastInstr := rfl
@[simp] theorem State.latch_fault (c : FaultCode) (a : Int) : (s.latch c a).fault = some ⟨c, s.pc, a⟩ := rfl
@[simp] theorem State.latch_prog (c : FaultCode) (a : Int) : (s.latch c a).prog = s.prog := rfl
@[simp] theorem State.latch_memCap (c : FaultCode) (a : Int) : (s.latch c a).memCap = s.memCap := rfl
@[simp] theorem State.latch_outcome (c : FaultCode) (a : Int) : (s.latch c a).outcome = some (.fault c) := rfl
@[simp] theorem State.latch_regChanges (c : FaultCode) (a : Int) : (s.latch c a).regChanges = [] := rfl
@[simp] theorem State.latch_memChanges (c : FaultCode) (a : Int) : (s.latch c a).memChanges = [] := rfl
@[simp] theorem State.latch_draws (c : FaultCode) (a : Int) : (s.latch c a).draws = s.draws := rfl

/-! ### `State.takeFault` -/

@[simp] theorem State.takeFault_regs (c : FaultCode) (a : Int) (d : Decoded) : (s.takeFault c a d).regs = s.regs := rfl
@[simp] theorem State.takeFault_pc (c : FaultCode) (a : Int) (d : Decoded) : (s.takeFault c a d).pc = s.pc := rfl
@[simp] theorem State.takeFault_flags (c : FaultCode) (a : Int) (d : Decoded) : (s.takeFault c a d).flags = s.flags := rfl
@[simp] theorem State.takeFault_mem (c : FaultCode) (a : Int) (d : Decoded) : (s.takeFault c a d).mem = s.mem := rfl
@[simp] theorem State.takeFault_instrCount (c : FaultCode) (a : Int) (d : Decoded) : (s.takeFault c a d).instrCount = s.instrCount + (Config.faultCountsInstr s.draws).toNat := rfl
@[simp] theorem State.takeFault_cycleCount (c : FaultCode) (a : Int) (d : Decoded) : (s.takeFault c a d).cycleCount = s.cycleCount + (Config.faultCountsCycle s.draws).toNat := rfl
@[simp] theorem State.takeFault_halted (c : FaultCode) (a : Int) (d : Decoded) : (s.takeFault c a d).halted = s.halted := rfl
@[simp] theorem State.takeFault_lastInstr (c : FaultCode) (a : Int) (d : Decoded) : (s.takeFault c a d).lastInstr = if Config.faultRecordsInstr s.draws then some d else s.lastInstr := rfl
@[simp] theorem State.takeFault_fault (c : FaultCode) (a : Int) (d : Decoded) : (s.takeFault c a d).fault = some ⟨c, s.pc, a⟩ := rfl
@[simp] theorem State.takeFault_prog (c : FaultCode) (a : Int) (d : Decoded) : (s.takeFault c a d).prog = s.prog := rfl
@[simp] theorem State.takeFault_memCap (c : FaultCode) (a : Int) (d : Decoded) : (s.takeFault c a d).memCap = s.memCap := rfl
@[simp] theorem State.takeFault_outcome (c : FaultCode) (a : Int) (d : Decoded) : (s.takeFault c a d).outcome = some (.fault c) := rfl
@[simp] theorem State.takeFault_regChanges (c : FaultCode) (a : Int) (d : Decoded) : (s.takeFault c a d).regChanges = [] := rfl
@[simp] theorem State.takeFault_memChanges (c : FaultCode) (a : Int) (d : Decoded) : (s.takeFault c a d).memChanges = [] := rfl
@[simp] theorem State.takeFault_draws (c : FaultCode) (a : Int) (d : Decoded) : (s.takeFault c a d).draws = s.draws + 1 := rfl

/-! ### `State.fetchFault` -/

@[simp] theorem State.fetchFault_regs : s.fetchFault.regs = s.regs := rfl
@[simp] theorem State.fetchFault_pc : s.fetchFault.pc = s.pc := rfl
@[simp] theorem State.fetchFault_flags : s.fetchFault.flags = s.flags := rfl
@[simp] theorem State.fetchFault_mem : s.fetchFault.mem = s.mem := rfl
@[simp] theorem State.fetchFault_instrCount : s.fetchFault.instrCount = s.instrCount := rfl
@[simp] theorem State.fetchFault_cycleCount : s.fetchFault.cycleCount = s.cycleCount := rfl
@[simp] theorem State.fetchFault_halted : s.fetchFault.halted = s.halted := rfl
@[simp] theorem State.fetchFault_lastInstr : s.fetchFault.lastInstr = s.lastInstr := rfl
@[simp] theorem State.fetchFault_fault : s.fetchFault.fault = some ⟨.fetchFault, s.pc, 0⟩ := rfl
@[simp] theorem State.fetchFault_prog : s.fetchFault.prog = s.prog := rfl
@[simp] theorem State.fetchFault_memCap : s.fetchFault.memCap = s.memCap := rfl
@[simp] theorem State.fetchFault_outcome : s.fetchFault.outcome = some (.fault .fetchFault) := rfl
@[simp] theorem State.fetchFault_regChanges : s.fetchFault.regChanges = [] := rfl
@[simp] theorem State.fetchFault_memChanges : s.fetchFault.memChanges = [] := rfl
@[simp] theorem State.fetchFault_draws : s.fetchFault.draws = s.draws := rfl

/-! ### `State.answer` -/

@[simp] theorem State.answer_regs (o : StepOutcome) : (s.answer o).regs = s.regs := rfl
@[simp] theorem State.answer_pc (o : StepOutcome) : (s.answer o).pc = s.pc := rfl
@[simp] theorem State.answer_flags (o : StepOutcome) : (s.answer o).flags = s.flags := rfl
@[simp] theorem State.answer_mem (o : StepOutcome) : (s.answer o).mem = s.mem := rfl
@[simp] theorem State.answer_instrCount (o : StepOutcome) : (s.answer o).instrCount = s.instrCount := rfl
@[simp] theorem State.answer_cycleCount (o : StepOutcome) : (s.answer o).cycleCount = s.cycleCount := rfl
@[simp] theorem State.answer_halted (o : StepOutcome) : (s.answer o).halted = s.halted := rfl
@[simp] theorem State.answer_lastInstr (o : StepOutcome) : (s.answer o).lastInstr = s.lastInstr := rfl
@[simp] theorem State.answer_fault (o : StepOutcome) : (s.answer o).fault = s.fault := rfl
@[simp] theorem State.answer_prog (o : StepOutcome) : (s.answer o).prog = s.prog := rfl
@[simp] theorem State.answer_memCap (o : StepOutcome) : (s.answer o).memCap = s.memCap := rfl
@[simp] theorem State.answer_outcome (o : StepOutcome) : (s.answer o).outcome = some o := rfl
@[simp] theorem State.answer_regChanges (o : StepOutcome) : (s.answer o).regChanges = [] := rfl
@[simp] theorem State.answer_memChanges (o : StepOutcome) : (s.answer o).memChanges = [] := rfl
@[simp] theorem State.answer_draws (o : StepOutcome) : (s.answer o).draws = s.draws := rfl

/-! ### `State.halt` -/

@[simp] theorem State.halt_regs : s.halt.regs = s.regs := rfl
@[simp] theorem State.halt_pc : s.halt.pc = s.pc := rfl
@[simp] theorem State.halt_flags : s.halt.flags = s.flags := rfl
@[simp] theorem State.halt_mem : s.halt.mem = s.mem := rfl
@[simp] theorem State.halt_instrCount : s.halt.instrCount = s.instrCount := rfl
@[simp] theorem State.halt_cycleCount : s.halt.cycleCount = s.cycleCount := rfl
@[simp] theorem State.halt_halted : s.halt.halted = true := rfl
@[simp] theorem State.halt_lastInstr : s.halt.lastInstr = s.lastInstr := rfl
@[simp] theorem State.halt_fault : s.halt.fault = s.fault := rfl
@[simp] theorem State.halt_prog : s.halt.prog = s.prog := rfl
@[simp] theorem State.halt_memCap : s.halt.memCap = s.memCap := rfl
@[simp] theorem State.halt_outcome : s.halt.outcome = s.outcome := rfl
@[simp] theorem State.halt_regChanges : s.halt.regChanges = s.regChanges := rfl
@[simp] theorem State.halt_memChanges : s.halt.memChanges = s.memChanges := rfl
@[simp] theorem State.halt_draws : s.halt.draws = s.draws := rfl

/-! ### `State.hostReset` -/

@[simp] theorem State.hostReset_regs : s.hostReset.regs = State.reset.regs := rfl
@[simp] theorem State.hostReset_pc : s.hostReset.pc = State.reset.pc := rfl
@[simp] theorem State.hostReset_flags : s.hostReset.flags = State.reset.flags := rfl
@[simp] theorem State.hostReset_mem : s.hostReset.mem = State.reset.mem := rfl
@[simp] theorem State.hostReset_instrCount : s.hostReset.instrCount = State.reset.instrCount := rfl
@[simp] theorem State.hostReset_cycleCount : s.hostReset.cycleCount = State.reset.cycleCount := rfl
@[simp] theorem State.hostReset_halted : s.hostReset.halted = State.reset.halted := rfl
@[simp] theorem State.hostReset_lastInstr : s.hostReset.lastInstr = State.reset.lastInstr := rfl
@[simp] theorem State.hostReset_fault : s.hostReset.fault = State.reset.fault := rfl
@[simp] theorem State.hostReset_prog : s.hostReset.prog = s.prog := rfl
@[simp] theorem State.hostReset_memCap : s.hostReset.memCap = s.memCap := rfl
@[simp] theorem State.hostReset_outcome : s.hostReset.outcome = State.reset.outcome := rfl
@[simp] theorem State.hostReset_regChanges : s.hostReset.regChanges = State.reset.regChanges := rfl
@[simp] theorem State.hostReset_memChanges : s.hostReset.memChanges = State.reset.memChanges := rfl
@[simp] theorem State.hostReset_draws : s.hostReset.draws = s.draws := rfl

/-! ### `State.writeReg` -/

@[simp] theorem State.writeReg_pc (i : RegIdx) (v : Word) : (s.writeReg i v).pc = s.pc := by
  unfold State.writeReg; split <;> rfl
@[simp] theorem State.writeReg_flags (i : RegIdx) (v : Word) : (s.writeReg i v).flags = s.flags := by
  unfold State.writeReg; split <;> rfl
@[simp] theorem State.writeReg_mem (i : RegIdx) (v : Word) : (s.writeReg i v).mem = s.mem := by
  unfold State.writeReg; split <;> rfl
@[simp] theorem State.writeReg_instrCount (i : RegIdx) (v : Word) : (s.writeReg i v).instrCount = s.instrCount := by
  unfold State.writeReg; split <;> rfl
@[simp] theorem State.writeReg_cycleCount (i : RegIdx) (v : Word) : (s.writeReg i v).cycleCount = s.cycleCount := by
  unfold State.writeReg; split <;> rfl
@[simp] theorem State.writeReg_halted (i : RegIdx) (v : Word) : (s.writeReg i v).halted = s.halted := by
  unfold State.writeReg; split <;> rfl
@[simp] theorem State.writeReg_lastInstr (i : RegIdx) (v : Word) : (s.writeReg i v).lastInstr = s.lastInstr := by
  unfold State.writeReg; split <;> rfl
@[simp] theorem State.writeReg_fault (i : RegIdx) (v : Word) : (s.writeReg i v).fault = s.fault := by
  unfold State.writeReg; split <;> rfl
@[simp] theorem State.writeReg_prog (i : RegIdx) (v : Word) : (s.writeReg i v).prog = s.prog := by
  unfold State.writeReg; split <;> rfl
@[simp] theorem State.writeReg_memCap (i : RegIdx) (v : Word) : (s.writeReg i v).memCap = s.memCap := by
  unfold State.writeReg; split <;> rfl
@[simp] theorem State.writeReg_outcome (i : RegIdx) (v : Word) : (s.writeReg i v).outcome = s.outcome := by
  unfold State.writeReg; split <;> rfl
@[simp] theorem State.writeReg_memChanges (i : RegIdx) (v : Word) : (s.writeReg i v).memChanges = s.memChanges := by
  unfold State.writeReg; split <;> rfl
@[simp] theorem State.writeReg_draws (i : RegIdx) (v : Word) : (s.writeReg i v).draws = s.draws := by
  unfold State.writeReg; split <;> rfl

/-! ### `State.reset` -/

@[simp] theorem State.reset_regs : State.reset.regs = Vector.replicate 31 0 := rfl
@[simp] theorem State.reset_pc : State.reset.pc = 0 := rfl
@[simp] theorem State.reset_flags : State.reset.flags = ⟨false, false, false, false⟩ := rfl
@[simp] theorem State.reset_mem : State.reset.mem = [] := rfl
@[simp] theorem State.reset_instrCount : State.reset.instrCount = 0 := rfl
@[simp] theorem State.reset_cycleCount : State.reset.cycleCount = 0 := rfl
@[simp] theorem State.reset_halted : State.reset.halted = false := rfl
@[simp] theorem State.reset_lastInstr : State.reset.lastInstr = none := rfl
@[simp] theorem State.reset_fault : State.reset.fault = none := rfl
@[simp] theorem State.reset_prog : State.reset.prog = [] := rfl
@[simp] theorem State.reset_memCap : State.reset.memCap = Config.defaultMemCap := rfl
@[simp] theorem State.reset_outcome : State.reset.outcome = none := rfl
@[simp] theorem State.reset_regChanges : State.reset.regChanges = [] := rfl
@[simp] theorem State.reset_memChanges : State.reset.memChanges = [] := rfl
@[simp] theorem State.reset_draws : State.reset.draws = 0 := rfl

end Sys2Proof.Machine
end

