-- ==== Sys2Proof/Laws/Ops.lean ====
section
/-! SUPPORT. What each shared operation can do, said once: register access, the access check, loads, stores, branches. -/

namespace Sys2Proof.Machine

variable (s : State)

/-! ### Registers -/

/-- Register 31 reads 0 (10_state R34). -/
@[simp] theorem x_31 : s.x 31#5 = 0#64 := rfl

/-- A register reads the same in states with the same registers. -/
theorem x_congr {s t : State} (h : t.regs = s.regs) (r : RegIdx) : t.x r = s.x r := by
  unfold State.x; rw [h]

theorem eq_31_of_not_lt {r : RegIdx} (h : ¬ r.toNat < 31) : r = 31#5 := by
  apply BitVec.eq_of_toNat_eq; have := r.isLt; simp; omega

theorem lt_31_of_ne {r : RegIdx} (h : r ≠ 31#5) : r.toNat < 31 := by
  by_contra hn; exact h (eq_31_of_not_lt hn)

/-- A register after a register write: the written value, unless it is register 31 (10_state R33, R34). -/
theorem x_writeReg (i r : RegIdx) (v : Word) :
    (s.writeReg i v).x r = if r = i ∧ i ≠ 31#5 then v else s.x r := by
  by_cases hi : i.toNat < 31
  · have hi31 : i ≠ 31#5 := by rintro rfl; exact absurd hi (by decide)
    unfold State.writeReg State.x
    rw [dif_pos hi]
    by_cases hr : r.toNat < 31
    · rw [dif_pos hr, dif_pos hr, Vector.getElem_set]
      by_cases he : i.toNat = r.toNat
      · rw [if_pos he, if_pos ⟨(BitVec.eq_of_toNat_eq he).symm, hi31⟩]
      · rw [if_neg he, if_neg]; rintro ⟨rfl, -⟩; exact he rfl
    · rw [dif_neg hr, dif_neg hr, if_neg]; rintro ⟨rfl, -⟩; exact hr hi
  · have := eq_31_of_not_lt hi; subst this
    rw [if_neg (by simp)]; rfl

/-- The register change set after a register write: the register, when its stored value changed (10_state R33). -/
theorem regChanges_writeReg (i : RegIdx) (v : Word) :
    (s.writeReg i v).regChanges = if i = 31#5 ∨ s.x i = v then s.regChanges else s.regChanges ++ [i] := by
  by_cases hi : i.toNat < 31
  · have hi31 : i ≠ 31#5 := by rintro rfl; exact absurd hi (by decide)
    have hx : s.x i = s.regs[i.toNat] := by unfold State.x; rw [dif_pos hi]
    unfold State.writeReg
    rw [dif_pos hi, hx]; simp only [hi31, false_or]
  · have := eq_31_of_not_lt hi; subst this
    rw [if_pos (.inl rfl)]; rfl

@[simp] theorem x_begin (r : RegIdx) : s.begin.x r = s.x r := rfl
@[simp] theorem x_setFlags (v : Word) (r : RegIdx) : (s.setFlags v).x r = s.x r := rfl
@[simp] theorem x_reportMem (k : AccessKind) (a v : Int) (r : RegIdx) : (s.reportMem k a v).x r = s.x r := rfl
@[simp] theorem x_retireTo (i : Instr) (p : Word) (r : RegIdx) : (s.retireTo i p).x r = s.x r := rfl
@[simp] theorem x_retire (i : Instr) (r : RegIdx) : (s.retire i).x r = s.x r := rfl
@[simp] theorem x_latch (c : FaultCode) (a : Int) (r : RegIdx) : (s.latch c a).x r = s.x r := rfl
@[simp] theorem x_takeFault (c : FaultCode) (a : Int) (d : Decoded) (r : RegIdx) : (s.takeFault c a d).x r = s.x r := rfl
@[simp] theorem x_fetchFault (r : RegIdx) : s.fetchFault.x r = s.x r := rfl
@[simp] theorem x_answer (o : StepOutcome) (r : RegIdx) : (s.answer o).x r = s.x r := rfl
@[simp] theorem x_halt (r : RegIdx) : s.halt.x r = s.x r := rfl

/-- Every register reads 0 after reset (10_state R53). -/
@[simp] theorem x_reset (r : RegIdx) : State.reset.x r = 0#64 := by
  unfold State.x; split
  · simp
  · rfl

/-! ### The access check and the whole memory instructions -/

/-- An access raises no fault exactly when it is aligned and inside the memory (20_memory R77, R78). -/
theorem accessFault_eq_none {cap n : Nat} {addr : Int} :
    accessFault cap addr n = none ↔ (n ≤ 1 ∨ addr % n = 0) ∧ 0 ≤ addr ∧ addr + n ≤ cap := by
  unfold accessFault
  split
  · simp; omega
  · split <;> simp <;> omega

/-- The fault of an access: misalignment first, then the range (20_memory R80). -/
theorem accessFault_eq_some {cap n : Nat} {addr : Int} {c : FaultCode} (h : accessFault cap addr n = some c) :
    (c = .misalignedAccess ∧ 1 < n ∧ addr % n ≠ 0) ∨
      (c = .outOfBounds ∧ (n ≤ 1 ∨ addr % n = 0) ∧ (addr < 0 ∨ (cap : Int) < addr + n)) := by
  unfold accessFault at h
  split at h
  · rename_i h1; exact .inl ⟨by simpa using h.symm, h1⟩
  · split at h
    · rename_i h1 h2; exact .inr ⟨by simpa using h.symm, by omega, h2⟩
    · simp at h

variable {s} {i : Instr} {rt : RegIdx} {ea : Int} {n : Nat} {conv : Nat → Int} {u : Nat} {c : FaultCode}

theorem load_of_fault (h : accessFault s.memCap ea n = some c) :
    s.load i rt ea n conv = s.takeFault c ea (.instr i) := by
  unfold State.load State.memRead; rw [h]

theorem load_of_ok (h : accessFault s.memCap ea n = none) :
    s.load i rt ea n conv = ((s.begin.writeReg rt (wrap64 (conv (s.mem.readLE ea.toNat n)))).reportMem .read ea
      (conv (s.mem.readLE ea.toNat n))).retire i := by
  unfold State.load State.memRead; rw [h]

theorem store_of_fault (h : accessFault s.memCap ea n = some c) :
    s.store i ea n u = s.takeFault c ea (.instr i) := by
  unfold State.store State.memWrite; rw [State.begin_memCap, h]

/-- A store that does not fault puts the low bytes of its value into memory (20_memory R78). -/
theorem store_of_ok (h : accessFault s.memCap ea n = none) :
    s.store i ea n u = (({ s.begin with mem := s.mem.writeLE ea.toNat n (u % 2 ^ (8 * n)) } : State).reportMem .write ea
      u).retire i := by
  have hu : ((u : Int) % 2 ^ (8 * n)).toNat = u % 2 ^ (8 * n) := by
    have : ((2 : Int) ^ (8 * n)) = ((2 ^ (8 * n) : Nat) : Int) := by norm_cast
    rw [this, ← Int.natCast_mod, Int.toNat_natCast]
  unfold State.store State.memWrite
  rw [State.begin_memCap, h]
  simp only [hu, State.begin_mem]
  rfl

/-! ### Branches -/

variable {w : Nat}

@[simp] theorem branch_resolved (tidx : BitVec w) :
    s.branch i (.resolved tidx) = s.begin.retireTo i (targetAddress tidx) := rfl

@[simp] theorem branch_unresolved (l : Label) :
    s.branch i (.unresolved l : Target w) = s.takeFault .unresolvedBranchTarget 0 (.instr i) := rfl

@[simp] theorem branchIf_true (t : Target w) : s.branchIf i true t = s.branch i t := rfl

@[simp] theorem branchIf_false (t : Target w) : s.branchIf i false t = s.begin.retire i := rfl

end Sys2Proof.Machine
end

