-- ==== Sys2Proof/Laws/Meaning.lean ====
section
/-! SUPPORT. What a whole instruction built on a shared operation leaves, in the words of Safety.lean: one lemma for each shared
operation, to be cited where a meaning calls it. -/

namespace Sys2Proof.Machine

variable (s : State) (i : Instr)

theorem toInt_wrap64_spec (z : Int) : (wrap64 z).toInt = specWrap64 z := toInt_wrap64 z

theorem readLE_eq_littleEndian (m : Memory) (a n : Nat) : m.readLE a n = littleEndian m a n := readLE_eq_sum m a n

/-! ### Register results -/

theorem executed_retireTo {s t : State} {i : Instr} {p : Word} (h1 : t.instrCount = s.instrCount)
    (h2 : t.cycleCount = s.cycleCount) (h3 : t.halted = s.halted) (h4 : t.fault = s.fault) (h5 : t.prog = s.prog)
    (h6 : t.memCap = s.memCap) (h7 : t.draws = s.draws) : Executed i s (t.retireTo i p) := by
  refine ⟨?_, ?_, rfl, rfl, ?_, ?_, ?_, ?_, ?_⟩ <;> simp [*]

theorem setsRegister_of_writeReg {s u t : State} {rd : RegIdx} {v : Int} {r : Word} (hr : r.toInt = v)
    (hu : ∀ q, u.x q = s.x q) (hc : u.regChanges = []) (ht : ∀ q, t.x q = (u.writeReg rd r).x q)
    (htc : t.regChanges = (u.writeReg rd r).regChanges) : SetsRegister rd v s t := by
  subst hr
  refine ⟨?_, fun q hq => ?_, ?_⟩
  · rw [ht, x_writeReg]; by_cases h : rd = 31#5 <;> simp [h, hu]
  · rw [ht, x_writeReg, if_neg (by simp [hq]), hu]
  · rw [htc, regChanges_writeReg, hc, hu]; simp [BitVec.toInt_inj]

/-- A whole instruction that writes the result `v` (10_state R33, R34, 44_step_cycle R285). -/
theorem resultOnly_writeResult (rd : RegIdx) (v : Word) : ResultOnly i rd v.toInt s (s.writeResult i rd v) :=
  ⟨executed_retireTo (by simp) (by simp) (by simp) (by simp) (by simp) (by simp) (by simp),
    setsRegister_of_writeReg (u := s.begin) rfl (fun _ => rfl) rfl (fun _ => rfl) rfl, by simp [State.writeResult],
    fun _ => by simp [State.writeResult], by simp [State.writeResult], by simp [State.writeResult, nextPc_eq]⟩

/-- The flags of a result as the statements write them (40_rtype_register R181). -/
theorem flagsOf_eq (r : Word) : flagsOf r = ⟨decide (r.toInt < 0), decide (r.toInt = 0), false, false⟩ := by
  have h : (r = 0#64) ↔ (r.toInt = 0) := by rw [← BitVec.toInt_inj]; simp
  simp [flagsOf, h]

/-- N and Z are never both true (10_state R54). -/
theorem flagsOf_n_and_z (r : Word) : ((flagsOf r).n && (flagsOf r).z) = false := by
  by_cases h : r = 0#64 <;> simp [flagsOf, h]

/-- A whole instruction that writes the result `v` and the flags (40_rtype_register R184). -/
theorem resultAndFlags_writeResultFlags (rd : RegIdx) (v : Word) :
    ResultAndFlags i rd v.toInt s (s.writeResultFlags i rd v) :=
  ⟨executed_retireTo (by simp) (by simp) (by simp) (by simp) (by simp) (by simp) (by simp),
    setsRegister_of_writeReg (u := s.begin.setFlags v) rfl (fun _ => rfl) rfl (fun _ => rfl) rfl,
    by simp [State.writeResultFlags, flagsOf_eq], fun _ => by simp [State.writeResultFlags],
    by simp [State.writeResultFlags], by simp [State.writeResultFlags, nextPc_eq]⟩

/-! ### Faults -/

theorem add_toNat_bool (n : Nat) (b : Bool) : n + b.toNat = n ∨ n + b.toNat = n + 1 := by cases b <;> simp

/-- Taking a fault (60_exceptions R312, R314). -/
theorem faults_takeFault (c : FaultCode) (a : Int) (d : Decoded) : Faults c a d s (s.takeFault c a d) := by
  refine ⟨⟨fun _ => rfl, rfl, fun _ => rfl, rfl, rfl, rfl, rfl, rfl, rfl⟩, rfl, rfl, ?_, ?_, ?_⟩
  · rw [State.takeFault_instrCount]; exact add_toNat_bool _ _
  · rw [State.takeFault_cycleCount]; exact add_toNat_bool _ _
  · rw [State.takeFault_lastInstr]; split
    · exact .inr rfl
    · exact .inl rfl

/-! ### Loads and stores -/

/-- The access check of an aligned width under a legal capacity, by the three cases of 42_dtype_load_store R221 to R226: the
first byte decides whether the whole access is inside. -/
theorem accessFault_cases {cap n : Nat} {addr : Int} (hl : Config.legalMemCap cap = true) (hn : n = 1 ∨ n = 4 ∨ n = 8) :
    (addr % (n : Int) = 0 → 0 ≤ addr → addr < cap → accessFault cap addr n = none) ∧
    (addr % (n : Int) ≠ 0 → accessFault cap addr n = some .misalignedAccess) ∧
    (addr % (n : Int) = 0 → addr < 0 ∨ cap ≤ addr → accessFault cap addr n = some .outOfBounds) := by
  have hc : cap % 8 = 0 := by simp [Config.legalMemCap] at hl; omega
  refine ⟨fun h1 h2 h3 => ?_, fun h1 => ?_, fun h1 h2 => ?_⟩
  · rw [accessFault_eq_none]; rcases hn with rfl | rfl | rfl <;> omega
  · unfold accessFault; rw [if_pos]; rcases hn with rfl | rfl | rfl <;> simp at h1 ⊢ <;> omega
  · unfold accessFault; rw [if_neg, if_pos] <;> rcases hn with rfl | rfl | rfl <;> omega

/-- A load that raises no fault (42_dtype_load_store R228). -/
theorem loads_load {rt : RegIdx} {ea v : Int} {n : Nat} {conv : Nat → Int} (h : accessFault s.memCap ea n = none)
    (hv : conv (littleEndian s.mem ea.toNat n) = v) (hw : (wrap64 v).toInt = v) :
    Loads i rt ea v s (s.load i rt ea n conv) := by
  rw [load_of_ok h, readLE_eq_littleEndian, hv]
  exact ⟨executed_retireTo (by simp) (by simp) (by simp) (by simp) (by simp) (by simp) (by simp),
    setsRegister_of_writeReg (u := s.begin) hw (fun _ => rfl) rfl (fun _ => rfl) rfl, by simp, fun _ => by simp, by simp,
    by simp [nextPc_eq]⟩

/-- A store that raises no fault (42_dtype_load_store R228). -/
theorem stores_store {ea : Int} {n u : Nat} (h : accessFault s.memCap ea n = none) (hu : u < 2 ^ (8 * n)) :
    Stores i ea n u s (s.store i ea n u) := by
  have ha := (accessFault_eq_none.mp h).2.1
  rw [store_of_ok h, Nat.mod_eq_of_lt hu]
  refine ⟨executed_retireTo (by simp) (by simp) (by simp) (by simp) (by simp) (by simp) (by simp),
    ⟨fun _ => rfl, by simp⟩, by simp, fun k hk => ?_, fun a hn => ?_, by simp, by simp [nextPc_eq]⟩
  · simp only [State.retire_mem, State.reportMem_mem, byte_writeLE]
    rw [if_pos (by omega), Nat.add_sub_cancel_left, BitVec.toNat_ofNat, pow_mul]; rfl
  · simp only [State.retire_mem, State.reportMem_mem, byte_writeLE]
    rw [if_neg (by omega)]

/-- What a memory write that succeeds did (20_memory R78). -/
theorem memWrite_ok {s t : State} {addr v : Int} {n : Nat} (h : s.memWrite addr n v = .ok t) :
    accessFault s.memCap addr n = none ∧ t = { s with mem := s.mem.writeLE addr.toNat n (v % 2 ^ (8 * n)).toNat } := by
  unfold State.memWrite at h
  split at h
  · cases h
  · cases h; exact ⟨‹_›, rfl⟩

/-- A memory write keeps the canonical form and stays inside the capacity. -/
theorem memInv_memWrite {s t : State} {addr v : Int} {n : Nat} (hs : s.memInv) (h : s.memWrite addr n v = .ok t) :
    t.memInv := by
  obtain ⟨ha, rfl⟩ := memWrite_ok h
  have := accessFault_eq_none.mp ha
  exact ⟨wf_writeLE hs.1 _ _ _, within_writeLE hs.2 (by omega) _⟩

/-! ### Branches -/

/-- A branch taken (43_branch R240). -/
theorem jumpsTo_retireTo (p : Word) : JumpsTo i p.toInt s (s.begin.retireTo i p) :=
  ⟨⟨rfl, rfl, rfl, rfl, rfl, rfl, rfl, rfl, rfl⟩, ⟨fun _ => rfl, rfl⟩, rfl, fun _ => rfl, rfl, rfl⟩

/-- A branch not taken (43_branch R240). -/
theorem fallsThrough_retire : FallsThrough i s (s.begin.retire i) :=
  ⟨⟨rfl, rfl, rfl, rfl, rfl, rfl, rfl, rfl, rfl⟩, ⟨fun _ => rfl, rfl⟩, rfl, fun _ => rfl, rfl, nextPc_eq _⟩

/-! ### Comparing two runs -/

/-- The state with another value in a register differs in its registers alone. -/
theorem poke_eq (r : RegIdx) (v : Word) : s.poke r v = { s with regs := (s.writeReg r v).regs } := by
  unfold State.poke State.writeReg; split <;> rfl

end Sys2Proof.Machine
end

