-- ==== Sys2Proof/Laws/PerInstr.lean ====
section
/-! SUPPORT. Per instruction: a word exists for it exactly when it is well-formed (30_encoding R112, R139). -/

namespace Sys2Proof.Laws.Encodable

/-- The encoder gives a word exactly to the well-formed instructions. -/
def Statement (i : Instr) : Prop := (encode i).isSome = i.wellFormed

theorem add (rd rn rm : RegIdx) : Statement (.add rd rn rm) := rfl
theorem sub (rd rn rm : RegIdx) : Statement (.sub rd rn rm) := rfl
theorem adds (rd rn rm : RegIdx) : Statement (.adds rd rn rm) := rfl
theorem subs (rd rn rm : RegIdx) : Statement (.subs rd rn rm) := rfl
theorem and (rd rn rm : RegIdx) : Statement (.and rd rn rm) := rfl
theorem orr (rd rn rm : RegIdx) : Statement (.orr rd rn rm) := rfl
theorem eor (rd rn rm : RegIdx) : Statement (.eor rd rn rm) := rfl
theorem mul (rd rn rm : RegIdx) : Statement (.mul rd rn rm) := rfl
theorem lsl (rd rn rm : RegIdx) : Statement (.lsl rd rn rm) := rfl
theorem lsr (rd rn rm : RegIdx) : Statement (.lsr rd rn rm) := rfl
theorem addi (rd rn : RegIdx) (imm : Imm) : Statement (.addi rd rn imm) := rfl
theorem subi (rd rn : RegIdx) (imm : Imm) : Statement (.subi rd rn imm) := rfl
theorem addis (rd rn : RegIdx) (imm : Imm) : Statement (.addis rd rn imm) := rfl
theorem subis (rd rn : RegIdx) (imm : Imm) : Statement (.subis rd rn imm) := rfl
theorem andi (rd rn : RegIdx) (imm : Imm) : Statement (.andi rd rn imm) := rfl
theorem orri (rd rn : RegIdx) (imm : Imm) : Statement (.orri rd rn imm) := rfl
theorem eori (rd rn : RegIdx) (imm : Imm) : Statement (.eori rd rn imm) := rfl
theorem movz (rd : RegIdx) (imm : Imm) : Statement (.movz rd imm) := rfl
theorem movk (rd : RegIdx) (imm : Imm) : Statement (.movk rd imm) := rfl
theorem ldur (rt rn : RegIdx) (imm : Imm) : Statement (.ldur rt rn imm) := rfl
theorem stur (rt rn : RegIdx) (imm : Imm) : Statement (.stur rt rn imm) := rfl
theorem ldurw (rt rn : RegIdx) (imm : Imm) : Statement (.ldurw rt rn imm) := rfl
theorem sturw (rt rn : RegIdx) (imm : Imm) : Statement (.sturw rt rn imm) := rfl
theorem ldurb (rt rn : RegIdx) (imm : Imm) : Statement (.ldurb rt rn imm) := rfl
theorem sturb (rt rn : RegIdx) (imm : Imm) : Statement (.sturb rt rn imm) := rfl
theorem b (t : Target 24) : Statement (.b t) := by cases t <;> rfl
theorem bl (t : Target 24) : Statement (.bl t) := by cases t <;> rfl
theorem br (rn : RegIdx) : Statement (.br rn) := rfl
theorem cbz (rt : RegIdx) (t : Target 19) : Statement (.cbz rt t) := by cases t <;> rfl
theorem cbnz (rt : RegIdx) (t : Target 19) : Statement (.cbnz rt t) := by cases t <;> rfl
theorem bEq (t : Target 19) : Statement (.bEq t) := by cases t <;> rfl
theorem bNe (t : Target 19) : Statement (.bNe t) := by cases t <;> rfl
theorem bLt (t : Target 19) : Statement (.bLt t) := by cases t <;> rfl
theorem bLe (t : Target 19) : Statement (.bLe t) := by cases t <;> rfl
theorem bGt (t : Target 19) : Statement (.bGt t) := by cases t <;> rfl
theorem bGe (t : Target 19) : Statement (.bGe t) := by cases t <;> rfl
theorem bLo (t : Target 19) : Statement (.bLo t) := by cases t <;> rfl
theorem bLs (t : Target 19) : Statement (.bLs t) := by cases t <;> rfl
theorem bHi (t : Target 19) : Statement (.bHi t) := by cases t <;> rfl
theorem bHs (t : Target 19) : Statement (.bHs t) := by cases t <;> rfl

end Sys2Proof.Laws.Encodable
end

