-- ==== Sys2Proof/Laws/Step.lean ====
section
/-! SUPPORT. What a fetch finds, everything a step can do, and a run as its first step and the rest. -/

namespace Sys2Proof.Machine

variable {s t : State}

/-! ### Fetch (44_step_cycle R281 to R283) -/

theorem fetch_completed (h : s.pc.toInt = 4 * s.prog.length) : s.fetch = .completed := by
  unfold State.fetch; rw [if_pos h]

theorem fetch_noInstruction (h : s.pc.toInt < 0 ∨ 4 * s.prog.length < s.pc.toInt ∨ s.pc.toInt % 4 ≠ 0)
    (hne : s.pc.toInt ≠ 4 * s.prog.length) : s.fetch = .noInstruction := by
  unfold State.fetch; rw [if_neg hne, if_pos h]

theorem fetch_word {k : Nat} {w : InstrWord} (hpc : s.pc.toInt = 4 * k) (hk : s.prog[k]? = some w) :
    s.fetch = .word w := by
  have hlt : k < s.prog.length := (List.getElem?_eq_some_iff.mp hk).1
  unfold State.fetch
  rw [if_neg (by omega), if_neg (by omega), show (s.pc.toInt / 4).toNat = k by omega, hk]

/-! ### Everything a step can do -/

/-- Inversion of `step`: the four answers that execute nothing, or the execution of the decoded word. -/
theorem step_cases (h : step s = .next t) :
    (s.fault ≠ none ∧ t = s.answer .stopped) ∨
    (s.fault = none ∧ s.halted = true ∧ t = s.answer .refusedCpuHalted) ∨
    (s.fault = none ∧ s.halted = false ∧ s.pc.toInt = 4 * s.prog.length ∧ t = s.answer .completed) ∨
    (s.fault = none ∧ s.halted = false ∧
      (s.pc.toInt < 0 ∨ 4 * s.prog.length < s.pc.toInt ∨ s.pc.toInt % 4 ≠ 0) ∧ t = s.fetchFault) ∨
    (s.fault = none ∧ s.halted = false ∧ ∃ (k : Nat) (w : InstrWord), s.pc.toInt = 4 * k ∧ k < s.prog.length ∧
      s.prog[k]? = some w ∧ execDecoded (decode w) s = .next t) := by
  cases hf : s.fault with
  | some f => simp [step, hf] at h; exact .inl ⟨by simp, h.symm⟩
  | none =>
    cases hh : s.halted with
    | true => simp [step, hf, hh] at h; exact .inr (.inl ⟨rfl, rfl, h.symm⟩)
    | false =>
      by_cases hc : s.pc.toInt = 4 * s.prog.length
      · simp [step, hf, hh, fetch_completed hc] at h; exact .inr (.inr (.inl ⟨rfl, rfl, hc, h.symm⟩))
      · by_cases hn : s.pc.toInt < 0 ∨ 4 * s.prog.length < s.pc.toInt ∨ s.pc.toInt % 4 ≠ 0
        · simp [step, hf, hh, fetch_noInstruction hn hc] at h
          exact .inr (.inr (.inr (.inl ⟨rfl, rfl, hn, h.symm⟩)))
        · have hlt : (s.pc.toInt / 4).toNat < s.prog.length := by omega
          have hk := List.getElem?_eq_getElem hlt
          have hpc : s.pc.toInt = 4 * ((s.pc.toInt / 4).toNat : Int) := by omega
          simp [step, hf, hh, fetch_word hpc hk] at h
          exact .inr (.inr (.inr (.inr ⟨rfl, rfl, _, _, hpc, hlt, hk, h⟩)))

/-- A run is its first step and the rest. -/
theorem run_succ (h : step s = .next t) (k : Nat) :
    Host.Core.run Sys2Proof.core (k + 1) s = Host.Core.run Sys2Proof.core k t := by
  have h' : Sys2Proof.core.step s = .next t := h
  simp only [Host.Core.run, h']

end Sys2Proof.Machine
end

