-- ==== Sys2Proof/Tests/Slice0.lean ====
section
/-! SUPPORT. Small tests, with expected values from spec/ (95_test_vectors, 30_encoding, 20_memory), and for every obligation
with hypotheses a named witness: concrete operands and states that meet them, clause by clause. -/

namespace Sys2Proof.Tests

open Sys2Proof.Machine

/-! ### Helpers -/

/-- The launch state of a program, with some registers set. -/
def start (prog : List InstrWord) (regs : List (RegIdx × Int)) : State :=
  regs.foldl (fun s p => s.writeReg p.1 (wrap64 p.2)) { State.reset with prog := prog }

/-- The same with a program counter. -/
def startAt (pc : Int) (prog : List InstrWord) (regs : List (RegIdx × Int)) : State :=
  { start prog regs with pc := wrap64 pc }

/-- The state after one step. -/
def after (s : State) : State :=
  match step s with
  | .next t => t
  | .fault _ => s
  | .refused _ => s

/-- The state after one instruction. -/
def afterExec (i : Instr) (s : State) : State :=
  match exec i s with
  | .next t => t
  | .fault _ => s
  | .refused _ => s

/-- One step of a word with `x[1]` and `x[2]` given: `x[3]`, N, Z, V, C, and the pc. -/
def op3 (word : InstrWord) (x1 x2 : Int) : Int × Flags × Int :=
  let t := after (start [word] [(1, x1), (2, x2)])
  ((t.x 3).toInt, t.flags, t.pc.toInt)

/-- One step of a word with `x[1]` given: `x[1]` after. -/
def op1 (word : InstrWord) (x1 : Int) : Int := ((after (start [word] [(1, x1)])).x 1).toInt

/-- N, Z, V, C. -/
def nzvc (n z v c : Bool) : Flags := ⟨n, z, v, c⟩

/-- No flag set. -/
def noFlags : Flags := nzvc false false false false

/-! ### Well-formedness (30_encoding R112): every check refuses an unresolved target -/

theorem test_illFormed_b : (Instr.b (.unresolved ['l'])).wellFormed = false := by decide
theorem test_illFormed_bl : (Instr.bl (.unresolved ['l'])).wellFormed = false := by decide
theorem test_illFormed_bEq : (Instr.bEq (.unresolved ['l'])).wellFormed = false := by decide
theorem test_illFormed_bNe : (Instr.bNe (.unresolved ['l'])).wellFormed = false := by decide
theorem test_illFormed_bLt : (Instr.bLt (.unresolved ['l'])).wellFormed = false := by decide
theorem test_illFormed_bLe : (Instr.bLe (.unresolved ['l'])).wellFormed = false := by decide
theorem test_illFormed_bGt : (Instr.bGt (.unresolved ['l'])).wellFormed = false := by decide
theorem test_illFormed_bGe : (Instr.bGe (.unresolved ['l'])).wellFormed = false := by decide
theorem test_illFormed_bLo : (Instr.bLo (.unresolved ['l'])).wellFormed = false := by decide
theorem test_illFormed_bLs : (Instr.bLs (.unresolved ['l'])).wellFormed = false := by decide
theorem test_illFormed_bHi : (Instr.bHi (.unresolved ['l'])).wellFormed = false := by decide
theorem test_illFormed_bHs : (Instr.bHs (.unresolved ['l'])).wellFormed = false := by decide
theorem test_illFormed_cbz : (Instr.cbz 3 (.unresolved ['l'])).wellFormed = false := by decide
theorem test_illFormed_cbnz : (Instr.cbnz 3 (.unresolved ['l'])).wellFormed = false := by decide

theorem test_wellFormed_branches : ([.b (.resolved 0), .bl (.resolved 1), .cbz 3 (.resolved 2), .cbnz 3 (.resolved 2),
    .bEq (.resolved 0), .bNe (.resolved 0), .bLt (.resolved 0), .bLe (.resolved 0), .bGt (.resolved 0), .bGe (.resolved 0),
    .bLo (.resolved 0), .bLs (.resolved 0), .bHi (.resolved 0), .bHs (.resolved 0), .br 30, .add 1 2 3] : List Instr).all
    Instr.wellFormed = true := by decide

/-! ### Decoding: one word for each constructor, its fields written out from 30_encoding R121 to R129 -/

theorem test_decode_add : decode 0b00000001_000_00010_000000_00001_00011 = .instr (.add 3 1 2) := by decide
theorem test_decode_sub : decode 0b00000010_000_00001_000000_11110_11111 = .instr (.sub 31 30 1) := by decide
theorem test_decode_adds : decode 0b00000011_000_10000_000000_11111_00001 = .instr (.adds 1 31 16) := by decide
theorem test_decode_subs : decode 0b00000100_000_00010_000000_00100_01000 = .instr (.subs 8 4 2) := by decide
theorem test_decode_and : decode 0b00000101_000_00010_000000_00001_00011 = .instr (.and 3 1 2) := by decide
theorem test_decode_orr : decode 0b00000110_000_00001_000000_11110_11111 = .instr (.orr 31 30 1) := by decide
theorem test_decode_eor : decode 0b00000111_000_10000_000000_11111_00001 = .instr (.eor 1 31 16) := by decide
theorem test_decode_mul : decode 0b00001000_000_00010_000000_00100_01000 = .instr (.mul 8 4 2) := by decide
theorem test_decode_lsl : decode 0b00001001_000_00010_000000_00001_00011 = .instr (.lsl 3 1 2) := by decide
theorem test_decode_lsr : decode 0b00001010_000_00001_000000_11110_11111 = .instr (.lsr 31 30 1) := by decide
theorem test_decode_addi : decode 0b00010001_00_011111111111_11111_00001 = .instr (.addi 1 31 2047) := by decide
theorem test_decode_subi : decode 0b00010010_00_111111111111_00100_01000 = .instr (.subi 8 4 (-1)) := by decide
theorem test_decode_addis : decode 0b00010011_00_000000001010_00001_00011 = .instr (.addis 3 1 10) := by decide
theorem test_decode_subis : decode 0b00010100_00_100000000000_11110_11111 = .instr (.subis 31 30 (-2048)) := by decide
theorem test_decode_andi : decode 0b00010101_00_011111111111_11111_00001 = .instr (.andi 1 31 2047) := by decide
theorem test_decode_orri : decode 0b00010110_00_111111111111_00100_01000 = .instr (.orri 8 4 (-1)) := by decide
theorem test_decode_eori : decode 0b00010111_00_000000001010_00001_00011 = .instr (.eori 3 1 10) := by decide
theorem test_decode_ldur : decode 0b00100001_00_100000000000_11110_11111 = .instr (.ldur 31 30 (-2048)) := by decide
theorem test_decode_stur : decode 0b00100010_00_011111111111_11111_00001 = .instr (.stur 1 31 2047) := by decide
theorem test_decode_ldurw : decode 0b00100011_00_111111111111_00100_01000 = .instr (.ldurw 8 4 (-1)) := by decide
theorem test_decode_sturw : decode 0b00100100_00_000000001010_00001_00011 = .instr (.sturw 3 1 10) := by decide
theorem test_decode_ldurb : decode 0b00100101_00_100000000000_11110_11111 = .instr (.ldurb 31 30 (-2048)) := by decide
theorem test_decode_sturb : decode 0b00100110_00_011111111111_11111_00001 = .instr (.sturb 1 31 2047) := by decide
theorem test_decode_movz : decode 0b00011000_00_011111001101_11111_00001 = .instr (.movz 1 1997) := by decide
theorem test_decode_movk : decode 0b00011001_00_111111111111_11111_00001 = .instr (.movk 1 (-1)) := by decide
theorem test_decode_b : decode 0b00110001_111111111111111111111111 = .instr (.b (.resolved 16777215)) := by decide
theorem test_decode_bl : decode 0b00110010_000000000000000000001000 = .instr (.bl (.resolved 8)) := by decide
theorem test_decode_br : decode 0b00110011_00000000000000_11110_00000 = .instr (.br 30) := by decide
theorem test_decode_cbz : decode 0b00110100_0000000000000000110_00001 = .instr (.cbz 1 (.resolved 6)) := by decide
theorem test_decode_cbnz : decode 0b00110101_1111111111111111111_11111 = .instr (.cbnz 31 (.resolved 524287)) := by decide
theorem test_decode_bEq : decode 0b00110110_0000000000000001011_0_0000 = .instr (.bEq (.resolved 11)) := by decide
theorem test_decode_bNe : decode 0b00110110_1111111111111111111_0_0001 = .instr (.bNe (.resolved 524287)) := by decide
theorem test_decode_bLt : decode 0b00110110_0000000000000001011_0_0010 = .instr (.bLt (.resolved 11)) := by decide
theorem test_decode_bLe : decode 0b00110110_1111111111111111111_0_0011 = .instr (.bLe (.resolved 524287)) := by decide
theorem test_decode_bGt : decode 0b00110110_0000000000000001011_0_0100 = .instr (.bGt (.resolved 11)) := by decide
theorem test_decode_bGe : decode 0b00110110_1111111111111111111_0_0101 = .instr (.bGe (.resolved 524287)) := by decide
theorem test_decode_bLo : decode 0b00110110_0000000000000001011_0_0110 = .instr (.bLo (.resolved 11)) := by decide
theorem test_decode_bLs : decode 0b00110110_1111111111111111111_0_0111 = .instr (.bLs (.resolved 524287)) := by decide
theorem test_decode_bHi : decode 0b00110110_0000000000000001011_0_1000 = .instr (.bHi (.resolved 11)) := by decide
theorem test_decode_bHs : decode 0b00110110_1111111111111111111_0_1001 = .instr (.bHs (.resolved 524287)) := by decide

/-- Condition numbers 10 and 15 decode without naming a condition (30_encoding R136). -/
theorem test_decode_reservedCondition :
    decode 0b00110110_0000000000000000111_0_1010 = .reservedCondition 10 7 ∧
    decode 0b00110110_0000000000000000111_0_1111 = .reservedCondition 15 7 := by decide

/-- The words of 95_test_vectors V-E that do not decode. -/
theorem test_illegal_words : ([0x00000000, 0xFFFFFFFF, 0x0B020023, 0x27000022, 0x37000000, 0x01220023, 0x01020423, 0x11400023,
    0x21800022, 0x18000021, 0x33000021, 0x33000420, 0x360000F0] : List InstrWord).all (fun w => decode w = .illegal w) =
    true := by decide

/-- The unassigned opcodes next to an assigned one, with zero fields (30_encoding R129). -/
theorem test_illegal_opcodes : ([0x0B, 0x10, 0x1A, 0x20, 0x27, 0x30, 0x37] : List Nat).all (fun op =>
    decode (BitVec.ofNat 32 (op * 2 ^ 24)) = .illegal (BitVec.ofNat 32 (op * 2 ^ 24))) = true := by decide

/-- A stored word's bytes, least significant first (30_encoding R161). -/
theorem test_bytes : bytesOfWord 0x11002BE1 = [0xE1, 0x2B, 0x00, 0x11] ∧
    decodeBytes [0xE1, 0x2B, 0x00, 0x11, 0xFF] = some (.instr (.addi 1 31 10), [0xFF]) ∧
    decodeBytes [0xE1, 0x2B, 0x00] = none ∧
    wordsOfBytes [0xE1, 0x2B, 0x00, 0x11, 0x05] = ([0x11002BE1], [0x05]) := by decide

/-- The table word of ADDI, and what `step` runs first after it is placed in the reset state. -/
theorem test_decodeTableWord : decodeTableWord 32 0x11002BE1 = some (.addi 1 31 10) ∧ decodeTableWord 32 0 = none := by decide
theorem test_withFetchWord : ((after (State.reset.withFetchWord 32 0x11002BE1)).x 1).toInt = 10 := by decide
theorem test_withFetchWord_stopped :
    ((after (({ State.reset with fault := some ⟨.fetchFault, 2, 0⟩, pc := 2, halted := true } : State).withFetchWord 32
      0x11002BE1)).x 1).toInt = 10 := by decide

/-! ### R-type (95_test_vectors V-R) -/

theorem test_add_wraps : op3 0x01020023 (2 ^ 63 - 1) 1 = (-2 ^ 63, noFlags, 4) := by decide
theorem test_add_noFlags : op3 0x01020023 (-1) 1 = (0, noFlags, 4) := by decide
theorem test_sub_negative : op3 0x02020023 5 7 = (-2, noFlags, 4) := by decide
theorem test_sub_wraps : op3 0x02020023 0 (-2 ^ 63) = (-2 ^ 63, noFlags, 4) := by decide
theorem test_adds_overflow : op3 0x03020023 (2 ^ 63 - 1) 1 = (-2 ^ 63, (nzvc true false false false), 4) := by decide
theorem test_adds_carry : op3 0x03020023 (-1) 1 = (0, (nzvc false true false false), 4) := by decide
theorem test_subs_equal : op3 0x04020023 5 5 = (0, (nzvc false true false false), 4) := by decide
theorem test_subs_borrow : op3 0x04020023 0 (-2 ^ 63) = (-2 ^ 63, (nzvc true false false false), 4) := by decide
theorem test_and : op3 0x05020023 (-1) (-2 ^ 63) = (-2 ^ 63, noFlags, 4) := by decide
theorem test_orr : op3 0x06020023 0xF00 240 = (4080, noFlags, 4) := by decide
theorem test_eor : op3 0x07020023 (-2 ^ 63) (-1) = (2 ^ 63 - 1, noFlags, 4) := by decide
theorem test_mul_low : op3 0x08020023 4294967297 4294967297 = (8589934593, noFlags, 4) := by decide
theorem test_mul_wraps : op3 0x08020023 (-2 ^ 63) (-1) = (-2 ^ 63, noFlags, 4) := by decide
theorem test_lsl_mod64 : op3 0x09020023 1 65 = (2, noFlags, 4) := by decide
theorem test_lsl_negativeAmount : op3 0x09020023 3 (-1) = (-2 ^ 63, noFlags, 4) := by decide
theorem test_lsr_logical : op3 0x0A020023 (-1) 1 = (2 ^ 63 - 1, noFlags, 4) := by decide
theorem test_lsr_negativeAmount : op3 0x0A020023 (-16) (-60) = (1152921504606846975, noFlags, 4) := by decide

/-- Both reads see the old value: `ADD X1, X1, X1` with 21. -/
theorem test_add_sourceIsDestination : op1 0x01010021 21 = 42 := by decide
/-- `ADDS XZR, X1, X2` writes no register and sets the flags. -/
theorem test_adds_zeroRegister :
    (after (start [0x0302003F] [(1, -1), (2, 1)])).regChanges = [] ∧
    (after (start [0x0302003F] [(1, -1), (2, 1)])).flags = nzvc false true false false := by decide
/-- The change set holds the register whose value changed, and not one written with its old value. -/
theorem test_changeSet : (after (start [0x01020023] [(1, 5)])).regChanges = [3] ∧
    (after (start [0x193FFFE1] [(1, -1)])).regChanges = [] := by decide

/-! ### I-type (95_test_vectors V-I) -/

theorem test_addi_negative : op3 0x11200023 0 0 = (-2048, noFlags, 4) := by decide
theorem test_addi_wraps : op3 0x11000423 (2 ^ 63 - 1) 0 = (-2 ^ 63, noFlags, 4) := by decide
theorem test_subi_negative : op3 0x12200023 0 0 = (2048, noFlags, 4) := by decide
theorem test_subi_wraps : op3 0x12000423 (-2 ^ 63) 0 = (2 ^ 63 - 1, noFlags, 4) := by decide
theorem test_addis_zero : op3 0x13001423 (-5) 0 = (0, (nzvc false true false false), 4) := by decide
theorem test_addis_overflow : op3 0x13000423 (2 ^ 63 - 1) 0 = (-2 ^ 63, (nzvc true false false false), 4) := by decide
theorem test_subis_negative : op3 0x14002423 7 0 = (-2, (nzvc true false false false), 4) := by decide
theorem test_subis_wraps : op3 0x14000423 (-2 ^ 63) 0 = (2 ^ 63 - 1, noFlags, 4) := by decide
theorem test_andi_signExtends : op3 0x153FC023 0x123456789 0 = (0x123456780, noFlags, 4) := by decide
theorem test_orri_signExtends : op3 0x16200023 5 0 = (-2043, noFlags, 4) := by decide
theorem test_eori_not : op3 0x173FFC23 1 0 = (-2, noFlags, 4) := by decide
theorem test_eori : op3 0x17003C23 255 0 = (240, noFlags, 4) := by decide
theorem test_movz : op1 0x181F37E1 5 = 1997 := by decide
theorem test_movz_negative : op1 0x182003E1 5 = -2048 := by decide
theorem test_movk : op1 0x190003E1 0x123456789ABCDEF0 = 0x123456789ABC0000 := by decide
theorem test_movk_negative : op1 0x192003E1 0 = 63488 := by decide

/-! ### D-type (95_test_vectors V-D) -/

/-- `mem[16..23]` = 88 77 66 55 44 33 22 81 and `x[1]` = 16. -/
def loadState (word : InstrWord) : State :=
  { start [word] [(1, 16)] with
    mem := [(16, 0x88), (17, 0x77), (18, 0x66), (19, 0x55), (20, 0x44), (21, 0x33), (22, 0x22), (23, 0x81)] }

/-- One load step: `x[2]` and the events. -/
def loaded (word : InstrWord) : Int × List MemEvent :=
  let t := after (loadState word)
  ((t.x 2).toInt, t.memChanges)

/-- One store step with `x[1]` = 16: the memory and the events. -/
def stored (word : InstrWord) (x2 : Int) : Memory × List MemEvent :=
  let t := after (start [word] [(1, 16), (2, x2)])
  (t.mem, t.memChanges)

theorem test_ldur : loaded 0x21000022 = (-9141687925025114232, [⟨.read, 16, -9141687925025114232⟩]) := by decide
theorem test_ldur_unwritten : loaded 0x21002022 = (0, [⟨.read, 24, 0⟩]) := by decide
theorem test_ldurw : loaded 0x23000022 = (1432778632, [⟨.read, 16, 1432778632⟩]) := by decide
theorem test_ldurw_signExtends : loaded 0x23001022 = (-2128465084, [⟨.read, 20, -2128465084⟩]) := by decide
theorem test_ldurb_zeroExtends : loaded 0x25001C22 = (129, [⟨.read, 23, 129⟩]) := by decide
theorem test_ldurb : loaded 0x25000C22 = (85, [⟨.read, 19, 85⟩]) := by decide
theorem test_stur : stored 0x22000022 1234605616436508552 =
    ([(16, 0x88), (17, 0x77), (18, 0x66), (19, 0x55), (20, 0x44), (21, 0x33), (22, 0x22), (23, 0x11)],
      [⟨.write, 16, 1234605616436508552⟩]) := by decide
theorem test_stur_address : stored 0x22000021 0 = ([(16, 0x10)], [⟨.write, 16, 16⟩]) := by decide
theorem test_sturw : stored 0x24001022 1234605616436508552 =
    ([(20, 0x88), (21, 0x77), (22, 0x66), (23, 0x55)], [⟨.write, 20, 1432778632⟩]) := by decide
theorem test_sturw_negative : stored 0x24001022 (-7) =
    ([(20, 0xF9), (21, 0xFF), (22, 0xFF), (23, 0xFF)], [⟨.write, 20, 4294967289⟩]) := by decide
theorem test_sturb : stored 0x26001C22 1234605616436508552 = ([(23, 0x88)], [⟨.write, 23, 136⟩]) := by decide

/-- The latch after one step with `x[1]` given. -/
def latched (word : InstrWord) (x1 : Int) : Option FaultRecord := (after (start [word] [(1, x1)])).fault

theorem test_ldur_misaligned : latched 0x21001022 16 = some ⟨.misalignedAccess, 0, 20⟩ := by decide
theorem test_ldur_unwrapped : latched 0x21002022 (2 ^ 63 - 8) = some ⟨.outOfBounds, 0, 9223372036854775808⟩ := by decide
theorem test_ldurw_alignmentFirst : latched 0x23000822 1048576 = some ⟨.misalignedAccess, 0, 1048578⟩ := by decide
theorem test_ldurb_below : latched 0x253FFFE2 0 = some ⟨.outOfBounds, 0, -1⟩ := by decide
theorem test_stur_below : latched 0x223FE3E2 0 = some ⟨.outOfBounds, 0, -8⟩ := by decide
theorem test_sturw_below : latched 0x24200022 (-2 ^ 63) = some ⟨.outOfBounds, 0, -9223372036854777856⟩ := by decide
/-- A fault changes no register, byte, flag or pc (60_exceptions R312). -/
theorem test_fault_precise :
    (after (start [0x24000822] [(1, 16), (2, -1)])).mem = [] ∧ (after (start [0x24000822] [(1, 16), (2, -1)])).pc = 0 ∧
    (after (start [0x24000822] [(1, 16), (2, -1)])).fault = some ⟨.misalignedAccess, 0, 18⟩ := by decide

/-! ### Branches (95_test_vectors V-B) -/

/-- One step at a pc in a program of nine words: the pc and `x[30]` after, and the change set. -/
def branched (pc : Int) (word : InstrWord) (regs : List (RegIdx × Int)) : Int × Int × List RegIdx :=
  let t := after (startAt pc (List.replicate 9 word) regs)
  (t.pc.toInt, (t.x 30).toInt, t.regChanges)

theorem test_b : branched 8 0x31000005 [] = (20, 0, []) := by decide
theorem test_b_self : branched 0 0x31000000 [] = (0, 0, []) := by decide
theorem test_bl : branched 20 0x32000003 [] = (12, 24, [30]) := by decide
theorem test_bl_sameLink : branched 20 0x32000003 [(30, 24)] = (12, 24, []) := by decide
theorem test_br : branched 0 0x33000020 [(1, 24)] = (24, 0, []) := by decide
theorem test_br_unchecked : branched 0 0x33000020 [(1, -4)] = (-4, 0, []) := by decide
theorem test_cbz_taken : branched 0 0x34000081 [] = (16, 0, []) := by decide
theorem test_cbz_falls : branched 0 0x34000081 [(1, -2 ^ 63)] = (4, 0, []) := by decide
theorem test_cbnz_taken : branched 0 0x35000081 [(1, -1)] = (16, 0, []) := by decide
theorem test_cbnz_zeroRegister : branched 0 0x3500009F [] = (4, 0, []) := by decide

/-- The pc after one step of a B.cond at 0, under (N, Z) = (0, 0), (1, 0), (0, 1) with V and C false, then under
N = V = C = 1, Z = 0. -/
def condRow (word : InstrWord) : List Int :=
  [noFlags, nzvc true false false false, nzvc false true false false, nzvc true false true true].map fun f =>
    (after { start [word] [] with flags := f }).pc.toInt

theorem test_bEq : condRow 0x360000E0 = [4, 4, 28, 4] := by decide
theorem test_bNe : condRow 0x360000E1 = [28, 28, 4, 28] := by decide
theorem test_bLt : condRow 0x360000E2 = [4, 28, 4, 4] := by decide
theorem test_bLe : condRow 0x360000E3 = [4, 28, 28, 4] := by decide
theorem test_bGt : condRow 0x360000E4 = [28, 4, 4, 28] := by decide
theorem test_bGe : condRow 0x360000E5 = [28, 4, 28, 28] := by decide
theorem test_bLo : condRow 0x360000E6 = [28, 28, 28, 4] := by decide
theorem test_bLs : condRow 0x360000E7 = [28, 28, 28, 4] := by decide
theorem test_bHi : condRow 0x360000E8 = [4, 4, 4, 28] := by decide
theorem test_bHs : condRow 0x360000E9 = [4, 4, 4, 28] := by decide

/-! ### Steps, faults, the host (95_test_vectors V-E, V-S) -/

theorem test_step_illegal : latched 0x18000021 0 = some ⟨.unsupportedInstruction, 0, 0⟩ := by decide
theorem test_step_reservedCondition : latched 0x360000EA 0 = some ⟨.unsupportedCondition, 0, 0⟩ := by decide
theorem test_step_unresolved :
    (afterExec (.bl (.unresolved ['x'])) (start [] [])).fault = some ⟨.unresolvedBranchTarget, 0, 0⟩ ∧
    (afterExec (.bl (.unresolved ['x'])) (start [] [])).x 30 = 0 := by decide
theorem test_step_emptyProgram : (after State.reset).outcome = some .completed ∧ (after State.reset).instrCount = 0 := by decide
theorem test_step_fetchFault : (after (startAt 2 [0x01020023] [])).fault = some ⟨.fetchFault, 2, 0⟩ ∧
    (after (startAt 2 [0x01020023] [])).instrCount = 0 := by decide
theorem test_step_halted : (after (start [0x01020023] []).halt).outcome = some .refusedCpuHalted ∧
    (after (start [0x01020023] []).halt).fault = none := by decide
theorem test_step_stopped : (after (after (start [0] []))).outcome = some .stopped ∧
    (after (after (start [0] [])).halt).outcome = some .stopped := by decide
theorem test_reset_keepsProgram : (after (start [0x11002BE1] [])).hostReset.prog = [0x11002BE1] ∧
    (after (start [0x11002BE1] [])).hostReset.x 1 = 0 := by decide
theorem test_loadProgram : (State.reset.loadProgram [0x11002BE1]).isSome = true ∧
    ((after State.reset).loadProgram [0x11002BE1]).isSome = false := by decide
theorem test_construct : (construct 8).isSome = true ∧ (construct (2 ^ 62)).isSome = true ∧ (construct 0).isSome = false ∧
    (construct 12).isSome = false ∧ (construct (2 ^ 62 + 8)).isSome = false := by decide
theorem test_ports : (after (start [0x21001022] [(1, 16)])).ports.faultCode = 3 ∧
    (after (start [0x21001022] [(1, 16)])).ports.faultAddr = 20 ∧
    ({ State.reset with flags := nzvc true false false false } : State).ports.nzcv = 0b1000 ∧
    ({ State.reset with flags := nzvc false false true false } : State).ports.nzcv = 0b0001 := by decide
theorem test_runAll : (runAll 3 (start [0x31000000] [])).instrCount = 3 ∧ (runAll 9 (start [0x11002BE1] [])).instrCount = 1 := by
  decide

/-- Two widths over one doubleword (20_memory R93; V-M). -/
theorem test_memory_overlap :
    let m := ((Memory.writeLE [] 8 8 0x0102030405060708).writeLE 12 4 0xAABBCCDD).writeLE 9 1 0xEE
    Memory.readLE m 8 8 = 0xAABBCCDD0506EE08 ∧ m.byte 15 = 0xAA ∧ m.wf := by decide
/-- Writing the value an unlisted address reads as removes the entry. -/
theorem test_memory_canonical : Memory.setByte (Memory.setByte [] 5 7) 5 0 = [] := by decide

/-! ### The assembler (95_test_vectors V-A) -/

/-- The words of a one-line source, or its errors. -/
def asm (t : String) : Except (List (Nat × LineError)) (List InstrWord) := assemble t.toList

theorem test_asm_alias : asm "ldur x1, [sp, #8]  // comment" = .ok [0x21002381] := by decide
theorem test_asm_mixedCase : asm "add X1, xzr, Lr" = .ok [0x011E03E1] := by decide
theorem test_asm_outOfRange : (pass1 "MOVZ X1, #0xABCD".toList).errors = [(1, .outOfRangeImmediate)] := by decide
theorem test_asm_arity : (pass1 "ADD X1, X2".toList).errors = [(1, .wrongArity)] := by decide
theorem test_asm_register : (pass1 "ADD X1, X2, X32".toList).errors = [(1, .invalidRegister)] := by decide
theorem test_asm_memoryOperand : (pass1 "LDUR X1, [X2]".toList).errors = [(1, .malformedMemoryOperand)] := by decide
theorem test_asm_mnemonic : (pass1 "SDIV X1, X2, X3".toList).errors = [(1, .unknownMnemonic)] := by decide
theorem test_asm_undefinedLabel : asm "B nowhere" = .error [(1, .undefinedLabel "nowhere".toList)] := by decide
theorem test_asm_duplicateLabel : (pass1 "x:\nx:".toList).errors = [(2, .duplicateLabel)] := by decide
theorem test_asm_labelAtEnd : asm "B c\nc:" = .ok [0x31000001] := by decide

/-! ### Witnesses: states and operands that meet the hypotheses of the obligations -/

/-- O2: an instruction with a word; a well-formed instruction; a word that is not illegal. -/
theorem test_witness_encode : encode (.add 3 1 2) = some 0x01020023 ∧ (Instr.add 3 1 2).wellFormed = true ∧
    decode 0x01020023 ≠ .illegal 0x01020023 ∧ decode 0x360000EA ≠ .illegal 0x360000EA := by decide
/-- O3: an illegal word. -/
theorem test_witness_illegal : decode 0x18000021 = .illegal 0x18000021 := by decide
/-- O4: the least and the greatest reserved condition. -/
theorem test_witness_reservedCondition : 10 ≤ (10 : BitVec 4).toNat ∧ 10 ≤ (15 : BitVec 4).toNat := by decide
/-- O5: the last instruction of a program of two. -/
theorem test_witness_stepRuns :
    let s := startAt 4 [0x00000000, 0x01020023] []
    s.fault = none ∧ s.halted = false ∧ s.pc.toInt = 4 * (1 : Nat) ∧ s.prog[1]? = some 0x01020023 ∧
      decode 0x01020023 = .instr (.add 3 1 2) := by decide
/-- O6: a state for each clause, the pc on both sides of each boundary. -/
theorem test_witness_stepOrder_stopped : ({ start [] [] with fault := some ⟨.fetchFault, 2, 0⟩ } : State).fault ≠ none := by decide
theorem test_witness_stepOrder_refused : (start [] []).halt.fault = none ∧ (start [] []).halt.halted = true := by decide
theorem test_witness_stepOrder_completed :
    let s := startAt 4 [0x01020023] []
    s.fault = none ∧ s.halted = false ∧ s.pc.toInt = 4 * s.prog.length := by decide
theorem test_witness_stepOrder_fetchFault : ([-4, 8, 2] : List Int).all (fun pc =>
    let s := startAt pc [0x01020023] []
    s.fault = none ∧ s.halted = false ∧ (s.pc.toInt < 0 ∨ 4 * s.prog.length < s.pc.toInt ∨ s.pc.toInt % 4 ≠ 0)) = true := by
  decide
theorem test_witness_stepOrder_executes : ([0, 4] : List Int).all (fun pc =>
    let s := startAt pc [0x01020023, 0x01020023] []
    s.fault = none ∧ s.halted = false ∧ 0 ≤ s.pc.toInt ∧ s.pc.toInt < 4 * s.prog.length ∧ s.pc.toInt % 4 = 0) = true := by
  decide
/-- O8, O11: a step that answers each fault a program can raise. -/
theorem test_witness_faults_misaligned :
    let s := start [0x21001022] [(1, 16)]
    step s = .next (after s) ∧ (after s).outcome = some (.fault .misalignedAccess) := ⟨rfl, by decide⟩
theorem test_witness_faults_outOfBounds :
    let s := start [0x253FFFE2] []
    step s = .next (after s) ∧ (after s).outcome = some (.fault .outOfBounds) := ⟨rfl, by decide⟩
theorem test_witness_faults_illegal :
    let s := start [0] []
    step s = .next (after s) ∧ (after s).outcome = some (.fault .unsupportedInstruction) := ⟨rfl, by decide⟩
theorem test_witness_faults_condition :
    let s := start [0x360000EF] []
    step s = .next (after s) ∧ (after s).outcome = some (.fault .unsupportedCondition) := ⟨rfl, by decide⟩
theorem test_witness_faults_fetch :
    let s := startAt 2 [0] []
    step s = .next (after s) ∧ (after s).outcome = some (.fault .fetchFault) := ⟨rfl, by decide⟩
/-- O9, O10: a halted core, a completed run. -/
theorem test_witness_halted : (start [0] []).halt.fault = none ∧ (start [0] []).halt.halted = true := by decide
theorem test_witness_completed : (startAt 4 [0x01020023] []).runCompleted := by decide
/-- O11, O12, O44: steps with the other answers. -/
theorem test_witness_answer_ok :
    let s := start [0x01020023] []
    step s = .next (after s) ∧ (after s).outcome = some .ok := ⟨rfl, by decide⟩
theorem test_witness_answer_stopped :
    let s : State := { start [] [] with fault := some ⟨.fetchFault, 2, 0⟩ }
    step s = .next (after s) ∧ (after s).outcome = some .stopped := ⟨rfl, by decide⟩
theorem test_witness_answer_refused :
    let s := (start [] []).halt
    step s = .next (after s) ∧ (after s).outcome = some .refusedCpuHalted := ⟨rfl, by decide⟩
theorem test_witness_answer_completed :
    step State.reset = .next (after State.reset) ∧ (after State.reset).outcome = some .completed := ⟨rfl, by decide⟩
/-- O13: instructions other than BR from a pc on the grid, a jump and an advance. -/
theorem test_witness_grid :
    exec (.b (.resolved 5)) (start [] []) = .next (afterExec (.b (.resolved 5)) (start [] [])) ∧
    exec (.add 3 1 2) (start [] []) = .next (afterExec (.add 3 1 2) (start [] [])) ∧
    (∀ rn, Instr.b (.resolved 5) ≠ .br rn) ∧ (∀ rn, Instr.add 3 1 2 ≠ .br rn) ∧ (start [] []).pc.toInt % 4 = 0 :=
  ⟨rfl, rfl, by decide, by decide, by decide⟩
/-- O16, O26: registers other than 31, the greatest among them. -/
theorem test_witness_notRegister31 : (0 : RegIdx) ≠ 31#5 ∧ (30 : RegIdx) ≠ 31#5 := by decide
/-- O16: a write that changes the register and one that does not. -/
theorem test_witness_registerChange : (start [] []).x 5 = 0 ∧ specWrap64 (2 ^ 64) = 0 ∧ specWrap64 (2 ^ 63) = -2 ^ 63 := by decide
/-- O27, O30 (n = 8), O28, O31 (n = 4): every clause, at the ends of its range, `ea` being `x[1] + imm`. -/
theorem test_witness_access8 :
    Config.legalMemCap (start [] []).memCap = true ∧
    ([(0, 0), (1048576, -8)] : List (Int × Imm)).all (fun p =>
      let ea := ((start [] [(1, p.1)]).x 1).toInt + p.2.toInt
      ea % 8 = 0 ∧ 0 ≤ ea ∧ ea < (start [] []).memCap) = true ∧
    ([(0, -1), (0, 4), (1048576, 1)] : List (Int × Imm)).all (fun p =>
      let ea := ((start [] [(1, p.1)]).x 1).toInt + p.2.toInt
      ea % 8 ≠ 0) = true ∧
    ([(0, -8), (1048576, 0), (2 ^ 63 - 8, 8)] : List (Int × Imm)).all (fun p =>
      let ea := ((start [] [(1, p.1)]).x 1).toInt + p.2.toInt
      ea % 8 = 0 ∧ (ea < 0 ∨ (start [] []).memCap ≤ ea)) = true := by decide
theorem test_witness_access4 :
    ([(0, 0), (1048576, -4)] : List (Int × Imm)).all (fun p =>
      let ea := ((start [] [(1, p.1)]).x 1).toInt + p.2.toInt
      ea % 4 = 0 ∧ 0 ≤ ea ∧ ea < (start [] []).memCap) = true ∧
    ([(0, -1), (0, 2), (1048576, 2)] : List (Int × Imm)).all (fun p =>
      let ea := ((start [] [(1, p.1)]).x 1).toInt + p.2.toInt
      ea % 4 ≠ 0) = true ∧
    ([(0, -4), (1048576, 0)] : List (Int × Imm)).all (fun p =>
      let ea := ((start [] [(1, p.1)]).x 1).toInt + p.2.toInt
      ea % 4 = 0 ∧ (ea < 0 ∨ (start [] []).memCap ≤ ea)) = true := by decide
/-- O29, O32 (n = 1). -/
theorem test_witness_access1 :
    ([(0, 0), (1048576, -1)] : List (Int × Imm)).all (fun p =>
      let ea := ((start [] [(1, p.1)]).x 1).toInt + p.2.toInt
      0 ≤ ea ∧ ea < (start [] []).memCap) = true ∧
    ([(0, -1), (1048576, 0)] : List (Int × Imm)).all (fun p =>
      let ea := ((start [] [(1, p.1)]).x 1).toInt + p.2.toInt
      ea < 0 ∨ (start [] []).memCap ≤ ea) = true := by decide
/-- O36, O38: a register that is 0 and one that is not. -/
theorem test_witness_cbz : (start [] [(1, -2 ^ 63)]).x 1 ≠ 0 ∧ (start [] [(1, -2 ^ 63)]).x 2 = 0 := by decide
/-- O37, O38: for each condition flags under which it holds and flags under which it does not. -/
theorem test_witness_conditions : ([.eq, .ne, .lt, .le, .gt, .ge, .lo, .ls, .hi, .hs] : List Cond).all (fun c =>
    [noFlags, nzvc true false false false, nzvc false true false false, nzvc true false true true].any (condHolds · c) &&
    [noFlags, nzvc true false false false, nzvc false true false false, nzvc true false true true].any
      (!condHolds · c)) = true := by decide
/-- O39: reachable flags. -/
theorem test_witness_reachableFlags : (nzvc true false false false).v = false ∧ (nzvc true false false false).c = false := by
  decide
/-- O41: a state with a listed byte and flags set that satisfies the invariant and steps. -/
theorem test_witness_invariant :
    let s : State := { loadState 0x22000022 with flags := nzvc true false false false }
    s.Inv ∧ step s = .next (after s) := ⟨by decide, rfl⟩
/-- O42: the same state meets the premise; the least and the greatest capacity. -/
theorem test_witness_construct : construct 8 = some { State.reset with memCap := 8 } ∧
    construct (2 ^ 62) = some { State.reset with memCap := 2 ^ 62 } := by decide
/-- O43: an instruction that sets no flag; one that sets flags and one that does not, neither a B.cond. -/
theorem test_witness_flags :
    exec (.add 3 1 2) (start [] []) = .next (afterExec (.add 3 1 2) (start [] [])) ∧
    exec (.adds 3 1 2) (start [] []) = .next (afterExec (.adds 3 1 2) (start [] [])) ∧
    isFlagSetting (.add 3 1 2) = false ∧ isFlagSetting (.adds 3 1 2) = true ∧ isCondB (.add 3 1 2) = false ∧
    isCondB (.adds 3 1 2) = false := ⟨rfl, rfl, rfl, rfl, rfl, rfl⟩
/-- O45: an instruction other than a store. -/
theorem test_witness_notStore :
    exec (.ldur 2 1 0) (loadState 0) = .next (afterExec (.ldur 2 1 0) (loadState 0)) ∧ isStore (.ldur 2 1 0) = false :=
  ⟨rfl, rfl⟩
/-- O46: a register an instruction does not name, also register 31. -/
theorem test_witness_notNamed :
    exec (.add 3 1 2) (start [] []) = .next (afterExec (.add 3 1 2) (start [] [])) ∧ destination (.add 3 1 2) ≠ some 4 ∧
    4 ∉ sources (.add 3 1 2) ∧ destination (.add 3 1 2) ≠ some 31 ∧ 31 ∉ sources (.add 3 1 2) :=
  ⟨rfl, by decide, by decide, by decide, by decide⟩
/-- O47: a width and an address for each clause, where the clauses meet. -/
theorem test_witness_primitives :
    (1 < 8 ∧ (4 : Int) % 8 ≠ 0) ∧ (¬ (1 < 8 ∧ (-8 : Int) % 8 ≠ 0) ∧ ((-8 : Int) < 0)) ∧
    (¬ (1 < 8 ∧ (1048576 : Int) % 8 ≠ 0) ∧ ((1048576 : Int) < 1048576 + 8)) ∧
    (¬ (1 < 8 ∧ (1048568 : Int) % 8 ≠ 0) ∧ ¬ ((1048568 : Int) < 0 ∨ (1048576 : Int) < 1048568 + 8)) ∧
    (¬ (1 < 1 ∧ (1048575 : Int) % 1 ≠ 0) ∧ ¬ ((1048575 : Int) < 0 ∨ (1048576 : Int) < 1048575 + 1)) ∧
    State.reset.memCap = 1048576 := by decide
/-- O48, O49: a write that succeeds, at the last doubleword. -/
theorem test_witness_memWrite : State.reset.memWrite 1048568 8 (-2) = .ok { State.reset with
    mem := [(1048568, 0xFE), (1048569, 0xFF), (1048570, 0xFF), (1048571, 0xFF), (1048572, 0xFF), (1048573, 0xFF),
      (1048574, 0xFF), (1048575, 0xFF)] } := by decide
/-- O51: a label in the table, with the greatest index of a 19-bit field, and one that is not. -/
theorem test_witness_labels : lookupLabel [(['a'], 524287)] ['a'] = some 524287 ∧ 524287 < 2 ^ 19 ∧ 19 ≤ 24 ∧
    lookupLabel [(['a'], 524287)] ['b'] = none := by decide
/-- O52: a source with an error of pass 1; one with an error of pass 2 alone. -/
theorem test_witness_parseErrors : (pass1 "FOO".toList).errors ≠ [] ∧ (pass1 "B x".toList).errors = [] ∧
    (pass2 (pass1 "B x".toList).labels (pass1 "B x".toList).program).2 ≠ [] := by decide
theorem test_witness_parseErrors_aggregate : parse "B x".toList = .error [(1, .undefinedLabel "x".toList)] := by decide
/-- O53, O54: a program that parses, and a state that runs it. -/
theorem test_witness_parse : parse "l:\nB l".toList = .ok [(2, .b (.resolved 0))] := by decide
theorem test_witness_runsParsed :
    let s := start (wordsOfProgram [(2, .b (.resolved 0))]) []
    s.prog = wordsOfProgram [(2, .b (.resolved 0))] ∧ s.fault = none ∧ s.pcOnBoundary ∧ step s = .next (after s) :=
  ⟨rfl, by decide, by decide, rfl⟩
/-- O55: a load before the first step request, one after it, and a program one word too long. -/
theorem test_witness_load : State.reset.outcome = none ∧ ([0] : List InstrWord).length ≤ Config.maxProg ∧
    (after State.reset).outcome ≠ none := by decide
theorem test_witness_tooLong : Config.maxProg < (List.replicate (2 ^ 19) (0 : InstrWord)).length := by
  rw [List.length_replicate]; decide
/-- O56: a run that stops before the bound. -/
theorem test_witness_runAll : (runAll 2 State.reset).outcome = some .completed := by decide

end Sys2Proof.Tests
end

/-! PROOFS. What one instruction and one step do, said once for every instruction, and the statements about the state. -/

namespace Sys2Proof.Machine

/-! ### The rules of the shared operations that the statements about whole instructions need -/

section SharedOperations

variable {s : State} {i : Instr} {rt : RegIdx} {ea : Int} {n u : Nat} {conv : Nat → Int} {w : Nat}
  {t : Target w} {taken : Bool}

/-- A load leaves memory as it is, whether it faults or not (42_dtype_load_store R228). -/
@[simp] theorem load_mem : (s.load i rt ea n conv).mem = s.mem := by
  cases h : accessFault s.memCap ea n with
  | none => simp [load_of_ok h]
  | some c => simp [load_of_fault h]

/-- A load leaves the flags as they are (10_state R42). -/
@[simp] theorem load_flags : (s.load i rt ea n conv).flags = s.flags := by
  cases h : accessFault s.memCap ea n with
  | none => simp [load_of_ok h]
  | some c => simp [load_of_fault h]

/-- A store leaves the flags as they are (10_state R42). -/
@[simp] theorem store_flags : (s.store i ea n u).flags = s.flags := by
  cases h : accessFault s.memCap ea n with
  | none => simp [store_of_ok h]
  | some c => simp [store_of_fault h]

/-- A store leaves the registers as they are (10_state R36). -/
@[simp] theorem x_store (r : RegIdx) : (s.store i ea n u).x r = s.x r := by
  cases h : accessFault s.memCap ea n with
  | none => rw [store_of_ok h]; rfl
  | some c => rw [store_of_fault h]; rfl

/-- A load writes its destination alone (10_state R36). -/
theorem x_load_of_ne {r : RegIdx} (hr : r ≠ rt) : (s.load i rt ea n conv).x r = s.x r := by
  cases h : accessFault s.memCap ea n with
  | none => simp [load_of_ok h, x_writeReg, hr]
  | some c => simp [load_of_fault h]

/-- A load that raises no fault counts as executed (44_step_cycle R285). -/
theorem executed_load (h : accessFault s.memCap ea n = none) : Executed i s (s.load i rt ea n conv) := by
  rw [load_of_ok h]; apply executed_retireTo <;> simp

/-- A store that raises no fault counts as executed (44_step_cycle R285). -/
theorem executed_store (h : accessFault s.memCap ea n = none) : Executed i s (s.store i ea n u) := by
  rw [store_of_ok h]; apply executed_retireTo <;> simp

/-- A load leaves the pc, or advances it by 4 (44_step_cycle R285, R286). -/
theorem load_pc : (s.load i rt ea n conv).pc = s.pc ∨ (s.load i rt ea n conv).pc = nextPc s.pc := by
  cases h : accessFault s.memCap ea n with
  | none => right; simp [load_of_ok h]
  | some c => left; simp [load_of_fault h]

/-- A store leaves the pc, or advances it by 4 (44_step_cycle R285, R286). -/
theorem store_pc : (s.store i ea n u).pc = s.pc ∨ (s.store i ea n u).pc = nextPc s.pc := by
  cases h : accessFault s.memCap ea n with
  | none => right; simp [store_of_ok h]
  | some c => left; simp [store_of_fault h]

/-- An access never raises FetchFault (20_memory R80). -/
theorem accessFault_ne_fetchFault {cap : Nat} {c : FaultCode} (h : accessFault cap ea n = some c) : c ≠ .fetchFault := by
  obtain ⟨rfl, -⟩ | ⟨rfl, -⟩ := accessFault_eq_some h <;> simp

/-- A store keeps the canonical form of memory and stays inside the capacity. -/
theorem memInv_store (hs : s.memInv) : (s.store i ea n u).memInv := by
  obtain ⟨hwf, hin⟩ := hs
  cases h : accessFault s.memCap ea n with
  | none =>
    have hrange := accessFault_eq_none.mp h
    rw [store_of_ok h]
    exact ⟨wf_writeLE hwf _ _ _, within_writeLE hin (by omega) _⟩
  | some c => rw [store_of_fault h]; exact ⟨hwf, hin⟩

/-- What a conditional branch comes to: a fault at an unresolved target, a jump, or the advance by 4 (43_branch R240). -/
theorem branchIf_cases :
    s.branchIf i taken t = s.takeFault .unresolvedBranchTarget 0 (.instr i) ∨
      (∃ tidx : BitVec w, s.branchIf i taken t = s.begin.retireTo i (targetAddress tidx)) ∨
      s.branchIf i taken t = s.begin.retire i := by
  cases taken with
  | false => exact .inr (.inr rfl)
  | true =>
    cases t with
    | resolved tidx => exact .inr (.inl ⟨tidx, rfl⟩)
    | unresolved l => exact .inl rfl

/-- A conditional branch leaves registers, flags and memory as they are (43_branch R240). -/
theorem branchIf_frame : (s.branchIf i taken t).regs = s.regs ∧ (s.branchIf i taken t).flags = s.flags ∧
    (s.branchIf i taken t).mem = s.mem := by
  obtain h | ⟨tidx, h⟩ | h := @branchIf_cases s i w t taken <;> rw [h] <;> exact ⟨rfl, rfl, rfl⟩

/-- The advance by 4 keeps the pc on the four-byte grid, also where it wraps (10_state R40). -/
theorem nextPc_mod_four {pc : Word} (h : pc.toInt % 4 = 0) : (nextPc pc).toInt % 4 = 0 := by
  unfold nextPc; rw [toInt_wrap64]; omega

/-- A branch target lies on the four-byte grid (30_encoding R133). -/
theorem targetAddress_mod_four (tidx : BitVec w) : (targetAddress tidx).toInt % 4 = 0 := by
  unfold targetAddress; rw [toInt_wrap64]; omega

end SharedOperations

/-! ### Each meaning as operands read and an operation performed -/

/-- The shared operation an instruction comes to, with the operands it has read. -/
inductive Operation where
  | result (rd : RegIdx) (v : Word)
  | resultFlags (rd : RegIdx) (v : Word)
  | load (rt : RegIdx) (ea : Int) (n : Nat) (convert : Nat → Int)
  | store (ea : Int) (n u : Nat)
  | branch {w : Nat} (taken : Bool) (target : Target w)
  | link (target : Target 24)
  | jump (pc : Word)

/-- What an instruction reads: its operation, from the registers and the flags of `s` alone. -/
def operation (s : State) : Instr → Operation
  | .add rd rn rm => .result rd (wrap64 ((s.x rn).toInt + (s.x rm).toInt))
  | .sub rd rn rm => .result rd (wrap64 ((s.x rn).toInt - (s.x rm).toInt))
  | .adds rd rn rm => .resultFlags rd (wrap64 ((s.x rn).toInt + (s.x rm).toInt))
  | .subs rd rn rm => .resultFlags rd (wrap64 ((s.x rn).toInt - (s.x rm).toInt))
  | .and rd rn rm => .result rd (s.x rn &&& s.x rm)
  | .orr rd rn rm => .result rd (s.x rn ||| s.x rm)
  | .eor rd rn rm => .result rd (s.x rn ^^^ s.x rm)
  | .mul rd rn rm => .result rd (wrap64 ((s.x rn).toInt * (s.x rm).toInt))
  | .lsl rd rn rm => .result rd (shiftLeft (s.x rn) (s.x rm))
  | .lsr rd rn rm => .result rd (shiftRight (s.x rn) (s.x rm))
  | .addi rd rn imm => .result rd (wrap64 ((s.x rn).toInt + immValue imm))
  | .subi rd rn imm => .result rd (wrap64 ((s.x rn).toInt - immValue imm))
  | .addis rd rn imm => .resultFlags rd (wrap64 ((s.x rn).toInt + immValue imm))
  | .subis rd rn imm => .resultFlags rd (wrap64 ((s.x rn).toInt - immValue imm))
  | .andi rd rn imm => .result rd (s.x rn &&& immPattern imm)
  | .orri rd rn imm => .result rd (s.x rn ||| immPattern imm)
  | .eori rd rn imm => .result rd (s.x rn ^^^ immPattern imm)
  | .movz rd imm => .result rd (wrap64 (immValue imm))
  | .movk rd imm => .result rd (keepUpper (s.x rd) imm)
  | .ldur rt rn imm => .load rt (effectiveAddress (s.x rn) imm) 8 (fun u => (wrap64 u).toInt)
  | .stur rt rn imm => .store (effectiveAddress (s.x rn) imm) 8 (storeValue (s.x rt) 8)
  | .ldurw rt rn imm => .load rt (effectiveAddress (s.x rn) imm) 4 (fun u => wrap32 u)
  | .sturw rt rn imm => .store (effectiveAddress (s.x rn) imm) 4 (storeValue (s.x rt) 4)
  | .ldurb rt rn imm => .load rt (effectiveAddress (s.x rn) imm) 1 (fun u => u)
  | .sturb rt rn imm => .store (effectiveAddress (s.x rn) imm) 1 (storeValue (s.x rt) 1)
  | .b target => .branch true target
  | .bl target => .link target
  | .br rn => .jump (s.x rn)
  | .cbz rt target => .branch (decide (s.x rt = 0)) target
  | .cbnz rt target => .branch (decide (s.x rt ≠ 0)) target
  | .bEq target => .branch (condHolds s.flags .eq) target
  | .bNe target => .branch (condHolds s.flags .ne) target
  | .bLt target => .branch (condHolds s.flags .lt) target
  | .bLe target => .branch (condHolds s.flags .le) target
  | .bGt target => .branch (condHolds s.flags .gt) target
  | .bGe target => .branch (condHolds s.flags .ge) target
  | .bLo target => .branch (condHolds s.flags .lo) target
  | .bLs target => .branch (condHolds s.flags .ls) target
  | .bHi target => .branch (condHolds s.flags .hi) target
  | .bHs target => .branch (condHolds s.flags .hs) target

/-- The state after an operation performed for the instruction `i`. -/
def Operation.perform (i : Instr) (s : State) : Operation → State
  | .result rd v => s.writeResult i rd v
  | .resultFlags rd v => s.writeResultFlags i rd v
  | .load rt ea n convert => s.load i rt ea n convert
  | .store ea n u => s.store i ea n u
  | .branch taken target => s.branchIf i taken target
  | .link (.resolved tidx) => (s.begin.writeReg 30#5 (nextPc s.pc)).retireTo i (targetAddress tidx)
  | .link (.unresolved _) => s.takeFault .unresolvedBranchTarget 0 (.instr i)
  | .jump pc => s.begin.retireTo i pc

/-- The register an operation writes. -/
def Operation.writes : Operation → Option RegIdx
  | .result rd _ => some rd
  | .resultFlags rd _ => some rd
  | .load rt _ _ _ => some rt
  | .store _ _ _ => none
  | .branch _ _ => none
  | .link _ => some 30
  | .jump _ => none

/-- The operation writes the flags. -/
def Operation.setsFlags : Operation → Bool
  | .resultFlags _ _ => true
  | _ => false

/-- Every instruction answers a next state: that of its operation. -/
theorem exec_eq_perform (i : Instr) (s : State) : exec i s = .next ((operation s i).perform i s) := by
  cases i with
  | bl target => cases target <;> rfl
  | _ => rfl

/-- The register an instruction's operation writes is its destination by the table of 10_state R36. -/
theorem writes_operation (i : Instr) (s : State) : (operation s i).writes = destination i := by
  cases i <;> rfl

/-- The instructions whose operation writes the flags are the flag-setting ones (10_state R41). -/
theorem setsFlags_operation (i : Instr) (s : State) : (operation s i).setsFlags = isFlagSetting i := by
  cases i <;> rfl

/-- BR is the one instruction that takes its next pc from a register (10_state R39). -/
theorem operation_ne_jump {i : Instr} (hi : ∀ rn, i ≠ .br rn) (s : State) (p : Word) : operation s i ≠ .jump p := by
  cases i with
  | br rn => exact absurd rfl (hi rn)
  | _ => exact nofun

/-- An instruction's operation depends on its source registers, and for B.cond on the flags, alone (10_state R36, R42). -/
theorem operation_congr {i : Instr} {s t : State} (hx : ∀ q ∈ sources i, t.x q = s.x q)
    (hf : isCondB i = true → t.flags = s.flags) : operation t i = operation s i := by
  cases i <;> simp_all [operation, sources, isCondB]

/-! ### What every operation does and leaves -/

section Perform

variable (op : Operation) (i : Instr) (s : State)

/-- An operation ends in a fault of an instruction or counts as executed (60_exceptions R312, 44_step_cycle R285). -/
theorem perform_cases :
    (∃ c a, c ≠ .fetchFault ∧ op.perform i s = s.takeFault c a (.instr i)) ∨ Executed i s (op.perform i s) := by
  cases op with
  | result rd v => exact .inr (resultOnly_writeResult s i rd v).1
  | resultFlags rd v => exact .inr (resultAndFlags_writeResultFlags s i rd v).1
  | load rt ea n convert =>
    cases h : accessFault s.memCap ea n with
    | none => exact .inr (executed_load h)
    | some c => exact .inl ⟨c, ea, accessFault_ne_fetchFault h, load_of_fault h⟩
  | store ea n u =>
    cases h : accessFault s.memCap ea n with
    | none => exact .inr (executed_store h)
    | some c => exact .inl ⟨c, ea, accessFault_ne_fetchFault h, store_of_fault h⟩
  | branch taken target =>
    rw [Operation.perform]
    obtain h | ⟨tidx, h⟩ | h := branchIf_cases (s := s) (i := i) (t := target) (taken := taken)
    · exact .inl ⟨.unresolvedBranchTarget, 0, nofun, h⟩
    · rw [h]; exact .inr (jumpsTo_retireTo s i _).1
    · rw [h]; exact .inr (fallsThrough_retire s i).1
  | link target =>
    cases target with
    | resolved tidx => right; apply executed_retireTo <;> simp
    | unresolved l => exact .inl ⟨.unresolvedBranchTarget, 0, nofun, rfl⟩
  | jump pc => exact .inr (jumpsTo_retireTo s i pc).1

/-- The flags after an operation: as before, or those of the result where it sets them (10_state R41, R42). -/
theorem perform_flags : (op.setsFlags = false ∧ (op.perform i s).flags = s.flags) ∨
    (op.setsFlags = true ∧ ∃ r, (op.perform i s).flags = flagsOf r) := by
  cases op with
  | result rd v => exact .inl ⟨rfl, by simp [Operation.perform, State.writeResult]⟩
  | resultFlags rd v => exact .inr ⟨rfl, v, by simp [Operation.perform, State.writeResultFlags]⟩
  | load rt ea n convert => exact .inl ⟨rfl, load_flags⟩
  | store ea n u => exact .inl ⟨rfl, store_flags⟩
  | branch taken target => exact .inl ⟨rfl, branchIf_frame.2.1⟩
  | link target => cases target <;> exact .inl ⟨rfl, by simp [Operation.perform]⟩
  | jump pc => exact .inl ⟨rfl, rfl⟩

/-- Memory after an operation that is no store is as before (10_state R49). -/
theorem perform_mem (hop : ∀ ea n u, op ≠ .store ea n u) : (op.perform i s).mem = s.mem := by
  cases op with
  | result rd v => simp [Operation.perform, State.writeResult]
  | resultFlags rd v => simp [Operation.perform, State.writeResultFlags]
  | load rt ea n convert => exact load_mem
  | store ea n u => exact absurd rfl (hop ea n u)
  | branch taken target => exact branchIf_frame.2.2
  | link target => cases target <;> simp [Operation.perform]
  | jump pc => rfl

/-- A register an operation does not write reads as before (10_state R36). -/
theorem x_perform {r : RegIdx} (hr : op.writes ≠ some r) : (op.perform i s).x r = s.x r := by
  have hne : ∀ rd, op.writes = some rd → r ≠ rd := by rintro rd hrd rfl; exact hr hrd
  cases op with
  | result rd v => simp [Operation.perform, State.writeResult, x_writeReg, hne rd rfl]
  | resultFlags rd v => simp [Operation.perform, State.writeResultFlags, x_writeReg, hne rd rfl]
  | load rt ea n convert => exact x_load_of_ne (hne rt rfl)
  | store ea n u => exact x_store r
  | branch taken target => exact x_congr branchIf_frame.1 r
  | link target => cases target <;> simp [Operation.perform, x_writeReg, hne 30#5 rfl]
  | jump pc => rfl

/-- The pc after an operation that is no jump to a register's value: as before, advanced by 4, or a branch target
(10_state R40, 43_branch R240). -/
theorem perform_pc (hop : ∀ p, op ≠ .jump p) : (op.perform i s).pc = s.pc ∨ (op.perform i s).pc = nextPc s.pc ∨
    ∃ (w : Nat) (tidx : BitVec w), (op.perform i s).pc = targetAddress tidx := by
  cases op with
  | result rd v => right; left; simp [Operation.perform, State.writeResult]
  | resultFlags rd v => right; left; simp [Operation.perform, State.writeResultFlags]
  | load rt ea n convert => exact load_pc.imp_right .inl
  | store ea n u => exact store_pc.imp_right .inl
  | branch taken target =>
    rw [Operation.perform]
    obtain h | ⟨tidx, h⟩ | h := branchIf_cases (s := s) (i := i) (t := target) (taken := taken)
    · rw [h]; exact .inl rfl
    · rw [h]; exact .inr (.inr ⟨_, tidx, rfl⟩)
    · rw [h]; exact .inr (.inl rfl)
  | link target =>
    cases target with
    | resolved tidx => exact .inr (.inr ⟨_, tidx, rfl⟩)
    | unresolved l => exact .inl rfl
  | jump pc => exact absurd rfl (hop pc)

end Perform

/-! ### Two runs that differ where an operation does not look -/

/-- `g` changes the state only where no shared operation reads, besides the register and the flags that it writes. -/
structure Unseen (g : State → State) : Prop where
  pc : ∀ s, (g s).pc = s.pc
  mem : ∀ s, (g s).mem = s.mem
  memCap : ∀ s, (g s).memCap = s.memCap
  begin : ∀ s, (g s).begin = g s.begin
  setMem : ∀ s m, { g s with mem := m } = g { s with mem := m }
  reportMem : ∀ s k a v, (g s).reportMem k a v = g (s.reportMem k a v)
  retireTo : ∀ s i p, (g s).retireTo i p = g (s.retireTo i p)
  takeFault : ∀ s c a d, (g s).takeFault c a d = g (s.takeFault c a d)

/-- Other flags are unseen (10_state R42). -/
theorem unseen_flags (f : Flags) : Unseen fun s => { s with flags := f } := by
  constructor <;> intros <;> rfl

/-- Another value in a register is unseen (10_state R36). -/
theorem unseen_poke (r : RegIdx) (v : Word) : Unseen (·.poke r v) := by
  constructor <;> intros <;> unfold State.poke State.writeReg <;> split <;> rfl

section Commute

variable {g : State → State} (hg : Unseen g) (i : Instr) (s : State)
include hg

/-- The advance by 4 commutes with an unseen change. -/
theorem Unseen.retire : (g s).retire i = g (s.retire i) := by
  unfold State.retire; rw [hg.pc, hg.retireTo]

/-- A load commutes with an unseen change that commutes with the write of its destination. -/
theorem Unseen.load {rt : RegIdx} (hw : ∀ s v, (g s).writeReg rt v = g (s.writeReg rt v)) (ea : Int) (n : Nat)
    (conv : Nat → Int) : (g s).load i rt ea n conv = g (s.load i rt ea n conv) := by
  cases h : accessFault s.memCap ea n with
  | none =>
    rw [load_of_ok h, load_of_ok (by rwa [hg.memCap]), hg.begin, hw, hg.mem, hg.reportMem, hg.retire]
  | some c => rw [load_of_fault h, load_of_fault (by rwa [hg.memCap]), hg.takeFault]

/-- A store commutes with an unseen change. -/
theorem Unseen.store (ea : Int) (n u : Nat) : (g s).store i ea n u = g (s.store i ea n u) := by
  cases h : accessFault s.memCap ea n with
  | none =>
    rw [store_of_ok h, store_of_ok (by rwa [hg.memCap]), hg.begin, hg.mem, hg.setMem, hg.reportMem, hg.retire]
  | some c => rw [store_of_fault h, store_of_fault (by rwa [hg.memCap]), hg.takeFault]

/-- A conditional branch commutes with an unseen change. -/
theorem Unseen.branchIf {w : Nat} (taken : Bool) (t : Target w) :
    (g s).branchIf i taken t = g (s.branchIf i taken t) := by
  cases taken with
  | false => rw [branchIf_false, branchIf_false, hg.begin, hg.retire]
  | true =>
    cases t with
    | resolved tidx => rw [branchIf_true, branchIf_true, branch_resolved, branch_resolved, hg.begin, hg.retireTo]
    | unresolved l => rw [branchIf_true, branchIf_true, branch_unresolved, branch_unresolved, hg.takeFault]

/-- An operation commutes with an unseen change that commutes with the writes of its register and of its flags. -/
theorem Unseen.perform {op : Operation}
    (hw : ∀ rd, op.writes = some rd → ∀ s v, (g s).writeReg rd v = g (s.writeReg rd v))
    (hf : op.setsFlags = true → ∀ s v, (g s).setFlags v = g (s.setFlags v)) :
    op.perform i (g s) = g (op.perform i s) := by
  cases op with
  | result rd v => simp only [Operation.perform, State.writeResult, hg.begin, hw rd rfl, hg.retire]
  | resultFlags rd v => simp only [Operation.perform, State.writeResultFlags, hg.begin, hf rfl, hw rd rfl, hg.retire]
  | load rt ea n convert => exact hg.load i s (hw rt rfl) ea n convert
  | store ea n u => exact hg.store i s ea n u
  | branch taken target => exact hg.branchIf i s taken target
  | link target =>
    cases target with
    | resolved tidx => simp only [Operation.perform, hg.begin, hg.pc, hw 30#5 rfl, hg.retireTo]
    | unresolved l => exact hg.takeFault _ _ _ _
  | jump pc => simp only [Operation.perform, hg.begin, hg.retireTo]

end Commute

/-- An operation that sets the flags gives the same state whatever they were (10_state R41). -/
theorem perform_of_setsFlags {op : Operation} (i : Instr) (s : State) (f : Flags) (hop : op.setsFlags = true) :
    op.perform i { s with flags := f } = op.perform i s := by
  cases op with
  | resultFlags rd v => rfl
  | _ => cases hop

/-- A register other than the one poked reads as before. -/
theorem x_poke_of_ne {q r : RegIdx} (h : q ≠ r) (s : State) (v : Word) : (s.poke r v).x q = s.x q := by
  rw [x_congr (s := s.writeReg r v) (by rfl), x_writeReg, if_neg fun he => h he.1]

/-- A poke leaves the flags as they are. -/
theorem poke_flags (s : State) (r : RegIdx) (v : Word) : (s.poke r v).flags = s.flags := State.writeReg_flags s r v

/-- Setting the flags and poking a register commute. -/
theorem setFlags_poke (s : State) (r : RegIdx) (v w : Word) : (s.poke r v).setFlags w = (s.setFlags w).poke r v := by
  unfold State.poke State.writeReg; split <;> rfl

/-- Writes to two registers commute, the change set reporting the second alone. -/
theorem writeReg_poke_comm {rd r : RegIdx} (h : rd ≠ r) (s : State) (v w : Word) :
    (s.poke r v).writeReg rd w = (s.writeReg rd w).poke r v := by
  unfold State.poke State.writeReg
  have hne : rd.toNat ≠ r.toNat := fun he => h (BitVec.eq_of_toNat_eq he)
  by_cases hr : r.toNat < 31 <;> by_cases hrd : rd.toNat < 31
  · simp [hr, hrd, Vector.set_comm _ _ hne, Vector.getElem_set_ne _ _ hne.symm]
  all_goals simp [hr, hrd]

/-- Register writes leave the flags to themselves. -/
theorem writeReg_flags_comm (f : Flags) (s : State) (rd : RegIdx) (v : Word) :
    ({ s with flags := f } : State).writeReg rd v = { s.writeReg rd v with flags := f } := by
  unfold State.writeReg; split <;> rfl

/-! ### Every step -/

/-- What the execution of a decoded word can be: an instruction's fault, or an instruction executed (44_step_cycle R285,
R286). -/
theorem execDecoded_cases {d : Decoded} {s t : State} (h : execDecoded d s = .next t) :
    (∃ c a, c ≠ .fetchFault ∧ t = s.takeFault c a d) ∨
      ∃ i, d = .instr i ∧ t = (operation s i).perform i s ∧ Executed i s t := by
  cases d with
  | instr i =>
    obtain rfl : (operation s i).perform i s = t := by simpa [execDecoded, exec_eq_perform] using h
    exact (perform_cases (operation s i) i s).imp_right fun he => ⟨i, rfl, rfl, he⟩
  | reservedCondition cond tidx => cases h; exact .inl ⟨.unsupportedCondition, 0, nofun, rfl⟩
  | illegal w => cases h; exact .inl ⟨.unsupportedInstruction, 0, nofun, rfl⟩

/-- A step that answers Ok executed the instruction at the pc (44_step_cycle R281, R285). -/
theorem step_ok {s t : State} (h : step s = .next t) (hok : t.outcome = some .ok) :
    ∃ (k : Nat) (i : Instr), s.pc.toInt = 4 * k ∧ k < s.prog.length ∧ Executed i s t := by
  obtain ⟨-, rfl⟩ | ⟨-, -, rfl⟩ | ⟨-, -, -, rfl⟩ | ⟨-, -, -, rfl⟩ | ⟨-, -, k, w, hpc, hk, -, hx⟩ := step_cases h
  · simp at hok
  · simp at hok
  · simp at hok
  · simp at hok
  · obtain ⟨c, a, -, rfl⟩ | ⟨i, -, -, he⟩ := execDecoded_cases hx
    · simp at hok
    · exact ⟨k, i, hpc, hk, he⟩

/-! ### The invariant (10_state R54) -/

/-- A state with empty memory, clear flags and equal counters satisfies the invariant when its parameters are legal. -/
theorem inv_of_cleared {t : State} (hl : t.legalParams) (hm : t.mem = []) (hf : t.flags = ⟨false, false, false, false⟩)
    (hc : t.cycleCount = t.instrCount) : t.Inv :=
  ⟨hl, by rw [State.memInv, hm]; exact ⟨wf_reset, nofun⟩, by simp [State.flagsInv, hf], fun _ => hc⟩

/-- Taking a fault keeps the invariant: the counters may part, but a fault is latched (60_exceptions R314). -/
theorem inv_takeFault {s : State} (hs : s.Inv) (c : FaultCode) (a : Int) (d : Decoded) : (s.takeFault c a d).Inv :=
  let ⟨hparams, hmem, hflags, _⟩ := hs
  ⟨hparams, hmem, hflags, nofun⟩

/-- A FetchFault keeps the invariant (44_step_cycle R283). -/
theorem inv_fetchFault {s : State} (hs : s.Inv) : s.fetchFault.Inv :=
  let ⟨hparams, hmem, hflags, _⟩ := hs
  ⟨hparams, hmem, hflags, nofun⟩

/-- An operation keeps memory canonical and inside the capacity. -/
theorem memInv_perform {s : State} (op : Operation) (i : Instr) (hs : s.memInv)
    (hcap : (op.perform i s).memCap = s.memCap) : (op.perform i s).memInv := by
  cases op with
  | store ea n u => exact memInv_store hs
  | _ => unfold State.memInv; rw [hcap, perform_mem _ _ _ (by simp)]; exact hs

/-- An operation keeps the flag half of the invariant (10_state R54). -/
theorem flagsInv_perform {s : State} (op : Operation) (i : Instr) (hs : s.flagsInv) : (op.perform i s).flagsInv := by
  unfold State.flagsInv
  obtain ⟨-, h⟩ | ⟨-, r, h⟩ := perform_flags op i s
  · rw [h]; exact hs
  · rw [h]; exact ⟨rfl, rfl, flagsOf_n_and_z r⟩

/-- An executed operation keeps the invariant. -/
theorem inv_perform {s : State} {op : Operation} {i : Instr} (hs : s.Inv) (he : Executed i s (op.perform i s)) :
    (op.perform i s).Inv := by
  obtain ⟨⟨hcap, hlen⟩, hmem, hflags, hcount⟩ := hs
  obtain ⟨hic, hcc, -, -, -, hfault, hprog, hmc, -⟩ := he
  refine ⟨⟨hmc ▸ hcap, hprog ▸ hlen⟩, memInv_perform op i hmem hmc, flagsInv_perform op i hflags, fun hn => ?_⟩
  rw [hcc, hic, hcount (hfault ▸ hn)]

/-- A program that is loaded is of legal length, and nothing else of the invariant moves (80_host_interface R367). -/
theorem inv_loadProgram {s t : State} {p : List InstrWord} (hs : s.Inv) (h : s.loadProgram p = some t) : t.Inv := by
  obtain ⟨⟨hcap, -⟩, hrest⟩ := hs
  unfold State.loadProgram at h
  split at h
  next hp => cases h; exact ⟨⟨hcap, hp.2⟩, hrest⟩
  next => cases h

/-! ### The obligations -/

/-- Settles O41: a step answers without touching the state, takes a fault, or performs an operation. -/
theorem stepKeepsTheInvariant : Obligations.StepKeepsTheInvariant := by
  intro s t hs h
  obtain ⟨-, rfl⟩ | ⟨-, -, rfl⟩ | ⟨-, -, -, rfl⟩ | ⟨-, -, -, rfl⟩ | ⟨-, -, k, w, -, -, -, hx⟩ := step_cases h
  · exact hs
  · exact hs
  · exact hs
  · exact inv_fetchFault hs
  · obtain ⟨c, a, -, rfl⟩ | ⟨i, -, rfl, he⟩ := execDecoded_cases hx
    · exact inv_takeFault hs c a _
    · exact inv_perform hs he

/-- Settles O11: an executed instruction counts once in each counter; the four answers that execute nothing move neither,
and an instruction never answers one of them. -/
theorem onlyExecutedInstructionsAreCounted : Obligations.OnlyExecutedInstructionsAreCounted := by
  intro s t h
  refine ⟨fun hok => ?_, fun hout => ?_⟩
  · obtain ⟨k, i, -, -, hinstr, hcycle, -⟩ := step_ok h hok
    exact ⟨hinstr, hcycle⟩
  · obtain ⟨-, rfl⟩ | ⟨-, -, rfl⟩ | ⟨-, -, -, rfl⟩ | ⟨-, -, -, rfl⟩ | ⟨-, -, k, w, -, -, -, hx⟩ := step_cases h
    · exact ⟨rfl, rfl⟩
    · exact ⟨rfl, rfl⟩
    · exact ⟨rfl, rfl⟩
    · exact ⟨rfl, rfl⟩
    · obtain ⟨c, a, hc, rfl⟩ | ⟨i, -, -, -, -, -, hok, -⟩ := execDecoded_cases hx
      · simp [hc] at hout
      · simp [hok] at hout

/-- Settles O12, by inversion of a step that answers Ok. -/
theorem executingStepsHaveAnInstructionAtThePc : Obligations.ExecutingStepsHaveAnInstructionAtThePc := by
  intro s t h hok
  obtain ⟨k, i, hpc, hk, -⟩ := step_ok h hok
  omega

/-- Settles O13: the pc stays, advances by 4 or becomes a branch target, each a multiple of 4. -/
theorem onlyBrLeavesTheFourByteGrid : Obligations.OnlyBrLeavesTheFourByteGrid := by
  intro i s t h hi hs
  cases (exec_eq_perform i s).symm.trans h
  obtain hpc | hpc | ⟨w, tidx, hpc⟩ := perform_pc (operation s i) i s (operation_ne_jump hi s)
  · rw [hpc]; exact hs
  · rw [hpc]; exact nextPc_mod_four hs
  · rw [hpc]; exact targetAddress_mod_four tidx

/-- Settles O16, by what a register reads after a register write. -/
theorem registerHoldsTheWrappedValueWritten : Obligations.RegisterHoldsTheWrappedValueWritten := by
  intro s r z hr t
  refine ⟨?_, fun q hq => ?_, ?_⟩
  · rw [x_writeReg, if_pos ⟨rfl, hr⟩, toInt_wrap64_spec]
  · rw [x_writeReg, if_neg fun h => hq h.1]
  · simp only [t, regChanges_writeReg, ← toInt_wrap64_spec z, BitVec.toInt_inj, hr, false_or]

/-- Settles O42: a step by `stepKeepsTheInvariant`; every other request leaves what the invariant reads, clears it, or
loads a program of legal length. -/
theorem hostRequestsKeepTheInvariant : Obligations.HostRequestsKeepTheInvariant := by
  refine ⟨fun r s hs => ?_, fun cap s h => ?_⟩
  · cases r with
    | step =>
      rw [serve]
      split
      · exact stepKeepsTheInvariant s _ hs ‹_›
      · exact hs
      · exact hs
    | getState => exact hs
    | readByte a => exact hs
    | reset => exact inv_of_cleared hs.1 rfl rfl rfl
    | halt => exact hs
    | loadProgram p =>
      rw [serve]
      split
      · exact inv_loadProgram hs ‹_›
      · exact hs
  · unfold construct at h
    split at h
    next hcap => cases h; exact inv_of_cleared ⟨hcap, Nat.zero_le _⟩ rfl rfl rfl
    next => cases h

/-- Settles O43: other flags are unseen, and only a flag-setting operation writes them. -/
theorem onlyFourInstructionsWriteFlagsAndTenReadThem : Obligations.OnlyFourInstructionsWriteFlagsAndTenReadThem := by
  refine ⟨fun i s t h hi => ?_, fun i s t f h hi => ?_⟩
  · cases (exec_eq_perform i s).symm.trans h
    obtain ⟨-, hf⟩ | ⟨hset, -⟩ := perform_flags (operation s i) i s
    · exact hf
    · rw [setsFlags_operation, hi] at hset; cases hset
  · cases (exec_eq_perform i s).symm.trans h
    have hset := setsFlags_operation i s
    have hop : operation { s with flags := f } i = operation s i :=
      operation_congr (fun q _ => x_congr rfl q) fun hc => absurd hc (by simp [hi])
    rw [exec_eq_perform, hop]
    cases hb : isFlagSetting i with
    | true => rw [if_pos rfl, perform_of_setsFlags i s f (hset.trans hb)]
    | false =>
      rw [if_neg nofun]
      exact congrArg _ ((unseen_flags f).perform i s (fun rd _ s v => writeReg_flags_comm f s rd v)
        fun hs => absurd (hs.symm.trans (hset.trans hb)) nofun)

/-- Settles O46: another value in a register the instruction does not name is unseen. -/
theorem registersNotNamedAreNeitherReadNorWritten : Obligations.RegistersNotNamedAreNeitherReadNorWritten := by
  intro i s t r v h hd hr
  cases (exec_eq_perform i s).symm.trans h
  rw [← writes_operation i s] at hd
  refine ⟨x_perform _ i s hd, ?_⟩
  have hop : operation (s.poke r v) i = operation s i :=
    operation_congr (fun q hq => x_poke_of_ne (ne_of_mem_of_not_mem hq hr) s v) fun _ => poke_flags s r v
  rw [exec_eq_perform, hop]
  exact congrArg _ ((unseen_poke r v).perform i s
    (fun rd hrd s w => writeReg_poke_comm (by rintro rfl; exact hd hrd) s v w) fun _ s w => setFlags_poke s r v w)

/-- Settles O14: the request leaves what `State.reset` holds, but for the parameters. -/
theorem resetGivesTheSpecsValues : Obligations.ResetGivesTheSpecsValues := by
  unfold Obligations.ResetGivesTheSpecsValues
  intro ok
  have hreset : ok State.reset := ⟨x_reset, rfl, rfl, byte_nil, rfl, rfl, rfl, rfl, rfl⟩
  exact ⟨hreset, fun s => ⟨hreset, rfl, rfl⟩⟩

/-- Settles O15: no register is stored for index 31, so a read finds 0 and a write nothing to set. -/
theorem registerThirtyOneReadsZeroAndDiscardsWrites : Obligations.RegisterThirtyOneReadsZeroAndDiscardsWrites :=
  fun s _ => ⟨x_31 s, rfl⟩

/-- Settles O40: memory, flags and counters are cleared, and the default capacity and the empty program are legal. -/
theorem invariantHoldsAtReset : Obligations.InvariantHoldsAtReset :=
  inv_of_cleared (by decide) rfl rfl rfl

end Sys2Proof.Machine

/-! PROOFS. The memory primitives: what each answers, what a read sees of the bytes a write put there; and what of memory and
the parameters an instruction or a step leaves. -/

namespace Sys2Proof.Machine

/-! ### The answers of the two primitives, case by case -/

section Primitives

variable {s : State} {cap n : Nat} {addr v : Int} {c : FaultCode}

/-- A misaligned access of more than one byte faults, inside the memory or not (20_memory R77, R80). -/
theorem accessFault_of_misaligned (h : 1 < n ∧ addr % n ≠ 0) : accessFault cap addr n = some .misalignedAccess :=
  if_pos h

/-- An aligned access that is not wholly inside the memory is out of bounds (20_memory R77, R80). -/
theorem accessFault_of_outside (ha : ¬ (1 < n ∧ addr % n ≠ 0)) (h : addr < 0 ∨ (cap : Int) < addr + n) :
    accessFault cap addr n = some .outOfBounds :=
  (if_neg ha).trans (if_pos h)

theorem memRead_of_fault (h : accessFault s.memCap addr n = some c) : s.memRead addr n = .error c := by
  unfold State.memRead; rw [h]

theorem memRead_of_ok (h : accessFault s.memCap addr n = none) :
    s.memRead addr n = .ok (s.mem.readLE addr.toNat n) := by
  unfold State.memRead; rw [h]

theorem memWrite_of_fault (h : accessFault s.memCap addr n = some c) : s.memWrite addr n v = .error c := by
  unfold State.memWrite; rw [h]

theorem memWrite_of_ok (h : accessFault s.memCap addr n = none) :
    s.memWrite addr n v = .ok { s with mem := s.mem.writeLE addr.toNat n (v % 2 ^ (8 * n)).toNat } := by
  unfold State.memWrite; rw [h]

end Primitives

/-! ### Reading what was written -/

/-- Byte `k` of a multi-byte write is byte `k` of the value (20_memory R76, R78). -/
theorem toNat_byte_writeLE (m : Memory) (a v : Nat) {k n : Nat} (hk : k < n) :
    ((m.writeLE a n v).byte (a + k)).toNat = v / 2 ^ (8 * k) % 256 := by
  rw [byte_writeLE, if_pos (by omega), Nat.add_sub_cancel_left, BitVec.toNat_ofNat, pow_mul]; rfl

/-- A read of `j` of the bytes just written, from byte `k` on, gives those bytes of the value (20_memory R93). -/
theorem readLE_writeLE_within (m : Memory) (a v : Nat) {j k n : Nat} (h : k + j ≤ n) :
    (m.writeLE a n v).readLE (a + k) j = v / 2 ^ (8 * k) % 2 ^ (8 * j) := by
  rw [pow_mul, pow_mul]
  exact readLE_of_bytes fun l hl => by
    rw [byte_writeLE, if_pos (by omega), show a + k + l - a = k + l by omega, pow_add, Nat.div_div_eq_div_mul]; rfl

/-- After a write that succeeded, an aligned read inside its bytes succeeds and gives the corresponding bytes of the value
(20_memory R77, R78, R93). -/
theorem memRead_of_memWrite {s t : State} {addr v : Int} {j k n : Nat} (h : s.memWrite addr n v = .ok t)
    (hkj : k + j ≤ n) (halign : j ≤ 1 ∨ (addr + k) % j = 0) :
    t.memRead (addr + k) j = .ok ((v % 2 ^ (8 * n)).toNat / 2 ^ (8 * k) % 2 ^ (8 * j)) := by
  obtain ⟨hok, rfl⟩ := memWrite_ok h
  obtain ⟨-, hlo, hhi⟩ := accessFault_eq_none.mp hok
  rw [memRead_of_ok (accessFault_eq_none.mpr ⟨halign, by omega, by simp only; omega⟩),
    show (addr + k).toNat = addr.toNat + k by omega, readLE_writeLE_within _ _ _ hkj]

/-- `wrap64` sees an integer modulo 2^64 alone (00_scope R16). -/
theorem toInt_wrap64_emod (v : Int) : (wrap64 (v % 2 ^ 64).toNat).toInt = specWrap64 v := by
  rw [toInt_wrap64_spec, specWrap64, specWrap64]; omega

/-! ### What instructions and steps leave -/

/-- Only the three store instructions come to a store (42_dtype_load_store R222, R224, R226). -/
theorem operation_ne_store {i : Instr} (hi : isStore i = false) (s : State) (ea : Int) (n u : Nat) :
    operation s i ≠ .store ea n u := by
  cases i with
  | stur | sturw | sturb => cases hi
  | _ => exact nofun

/-! ### The obligations -/

/-- Settles O47: the access check decides the answer, and the bytes are those of a little-endian read or write. -/
theorem accessPrimitivesFollowTheSpec : Obligations.AccessPrimitivesFollowTheSpec := by
  intro s addr n v _
  refine ⟨fun ha => ?_, fun ha hr => ?_, fun ha hr => ?_⟩
  · have hf := accessFault_of_misaligned (cap := s.memCap) ha
    exact ⟨memRead_of_fault hf, memWrite_of_fault hf⟩
  · have hf := accessFault_of_outside ha hr
    exact ⟨memRead_of_fault hf, memWrite_of_fault hf⟩
  · have hok : accessFault s.memCap addr n = none := accessFault_eq_none.mpr (by omega)
    refine ⟨?_, _, memWrite_of_ok hok, fun k hk => toNat_byte_writeLE _ _ _ hk, fun a hout => ?_⟩
    · rw [memRead_of_ok hok, readLE_eq_littleEndian]
    · rw [byte_writeLE, if_neg (by omega)]

/-- Settles O48: the read of all the bytes written, whose value is below 2^(8n) already. -/
theorem readAfterWriteGivesTheValueWritten : Obligations.ReadAfterWriteGivesTheValueWritten := by
  intro s t addr v n h
  obtain ⟨halign, -⟩ := accessFault_eq_none.mp (memWrite_ok h).1
  have hlt : (v % 2 ^ (8 * n)).toNat < 2 ^ (8 * n) := by
    have := Int.emod_lt_of_pos v (show (0 : Int) < 2 ^ (8 * n) by positivity)
    zify; omega
  have hread : t.memRead addr n = .ok (v % 2 ^ (8 * n)).toNat := by
    simpa [Nat.mod_eq_of_lt hlt] using memRead_of_memWrite (k := 0) (j := n) h (by omega) (by simpa using halign)
  refine ⟨hread, ?_⟩
  rintro rfl u hu
  cases hread.symm.trans hu
  exact toInt_wrap64_emod v

/-- Settles O49: three reads inside the eight bytes; a doubleword's address is a multiple of 8, so both its words are
aligned. -/
theorem narrowReadsSeeTheBytesOfAWiderWrite : Obligations.NarrowReadsSeeTheBytesOfAWiderWrite := by
  intro s t a v h
  obtain ⟨halign, -⟩ := accessFault_eq_none.mp (memWrite_ok h).1
  refine ⟨fun k hk => memRead_of_memWrite h (by omega) (.inl le_rfl), ?_, ?_⟩
  · simpa using memRead_of_memWrite (k := 0) (j := 4) h (by omega) (.inr (by omega))
  · have hhigh : (v % 2 ^ 64).toNat / 2 ^ 32 < 2 ^ 32 := by omega
    rw [← Nat.mod_eq_of_lt hhigh]
    exact memRead_of_memWrite (k := 4) (j := 4) h (by omega) (.inr (by omega))

/-- Settles O45: an operation that is no store leaves memory as it is. -/
theorem onlyStoresChangeMemory : Obligations.OnlyStoresChangeMemory := by
  intro i s t h hi
  cases (exec_eq_perform i s).symm.trans h
  exact perform_mem _ i s (operation_ne_store hi s)

/-- Settles O44: an answer and a fault leave the three fields by definition, an executed instruction by its frame. -/
theorem noStepChangesTheProgramOrTheHaltedFlag : Obligations.NoStepChangesTheProgramOrTheHaltedFlag := by
  intro s t h
  obtain ⟨-, rfl⟩ | ⟨-, -, rfl⟩ | ⟨-, -, -, rfl⟩ | ⟨-, -, -, rfl⟩ | ⟨-, -, k, w, -, -, -, hx⟩ := step_cases h
  · exact ⟨rfl, rfl, rfl⟩
  · exact ⟨rfl, rfl, rfl⟩
  · exact ⟨rfl, rfl, rfl⟩
  · exact ⟨rfl, rfl, rfl⟩
  · obtain ⟨c, a, -, rfl⟩ | ⟨i, -, -, -, -, -, -, hhalted, -, hprog, hcap, -⟩ := execDecoded_cases hx
    · exact ⟨rfl, rfl, rfl⟩
    · exact ⟨hprog, hcap, hhalted⟩

end Sys2Proof.Machine

/-! PROOFS. The encoder and the decoder: the number of a word, the decoder's opcode map, and that each undoes the other. -/

namespace Sys2Proof.Machine

/-! ### The number of a word (30_encoding R139) -/

/-- The 12 bits of an immediate, as the formula of 30_encoding R139 gives them from its signed value. -/
theorem toNat_toInt_emod_4096 (imm : Imm) : (imm.toInt % 4096).toNat = imm.toNat := by
  have h := imm.isLt
  rw [BitVec.toInt_eq_toNat_cond]
  split <;> omega

/-- The number of an I-format or D-format word, its immediate as a signed value (30_encoding R132, R139). -/
theorem toNat_encodeI_signed (op : BitVec 8) (rd rn : RegIdx) (imm : Imm) : (encodeI op rd rn imm).toNat =
    op.toNat * 2 ^ 24 + ((imm.toInt % 4096).toNat * 2 ^ 10 + rn.toNat * 2 ^ 5 + rd.toNat) := by
  rw [toNat_toInt_emod_4096, toNat_encodeI]

/-! ### decode after encode -/

/-- The decoder looks the word's opcode up in the opcode map (30_encoding R131). -/
theorem decode_of_opcode {w : InstrWord} {op : BitVec 8} {d : Decoded} (hop : w.extractLsb' 24 8 = op)
    (hd : decodeOp op w = d) : decode w = d := by
  rw [decode, hop, hd]

/-- The word of an instruction is the number of 30_encoding R139, and decodes to the instruction: format by format. -/
theorem encode_spec {i : Instr} {w : InstrWord} (h : encode i = some w) :
    w.toNat = opcodeNumber i * 2 ^ 24 + operandNumber i ∧ decode w = .instr i := by
  cases i with
  | add rd rn rm | sub rd rn rm | adds rd rn rm | subs rd rn rm | and rd rn rm | orr rd rn rm | eor rd rn rm
  | mul rd rn rm | lsl rd rn rm | lsr rd rn rm =>
    cases h; exact ⟨toNat_encodeR _ rd rn rm, decode_of_opcode (encodeR_op _ rd rn rm) (decodeR_encodeR _ rd rn rm _)⟩
  | addi rd rn imm | subi rd rn imm | addis rd rn imm | subis rd rn imm | andi rd rn imm | orri rd rn imm
  | eori rd rn imm | ldur rd rn imm | stur rd rn imm | ldurw rd rn imm | sturw rd rn imm | ldurb rd rn imm
  | sturb rd rn imm =>
    cases h
    exact ⟨toNat_encodeI_signed _ rd rn imm, decode_of_opcode (encodeI_op _ rd rn imm) (decodeI_encodeI _ rd rn imm _)⟩
  | movz rd imm | movk rd imm =>
    cases h
    exact ⟨toNat_encodeI_signed _ rd 31#5 imm, decode_of_opcode (encodeI_op _ rd 31#5 imm) (decodeIM_encodeIM _ rd imm _)⟩
  | b t | bl t =>
    cases t with
    | resolved tidx => cases h; exact ⟨toNat_bWord _ tidx, decode_of_opcode (bWord_op _ tidx) (decodeB_bWord _ tidx _)⟩
    | unresolved l => cases h
  | br rn => cases h; exact ⟨toNat_encodeBR rn, decode_of_opcode (encodeBR_op rn) (decodeBR_encodeBR rn)⟩
  | cbz rt t | cbnz rt t =>
    cases t with
    | resolved tidx =>
      cases h; exact ⟨toNat_cbWord _ tidx rt, decode_of_opcode (cbWord_op _ tidx rt) (decodeCB_cbWord _ tidx rt _)⟩
    | unresolved l => cases h
  | bEq t | bNe t | bLt t | bLe t | bGt t | bGe t | bLo t | bLs t | bHi t | bHs t =>
    cases t with
    | resolved tidx =>
      cases h; exact ⟨toNat_encodeCC _ tidx, decode_of_opcode (encodeCC_op _ tidx) (decodeCC_encodeCond _ tidx)⟩
    | unresolved l => cases h

/-- A well-formed instruction has a word (30_encoding R112, R139). -/
theorem exists_encode {i : Instr} (h : i.wellFormed = true) : ∃ w, encode i = some w := by
  cases i with
  | b t | bl t | cbz _ t | cbnz _ t | bEq t | bNe t | bLt t | bLe t | bGt t | bGe t | bLo t | bLs t | bHi t | bHs t =>
    cases t with
    | resolved tidx => exact ⟨_, rfl⟩
    | unresolved l => cases h
  | _ => exact ⟨_, rfl⟩

/-- A CondB word whose condition is none of the ten decodes, but to no instruction (30_encoding R136). -/
theorem decode_encodeCC_reserved {cond : BitVec 4} (tidx : BitVec 19) (h : 10 ≤ cond.toNat) :
    decode (encodeCC cond tidx) = .reservedCondition cond tidx := by
  have hc : condOfBits cond = none := by revert cond; decide
  refine decode_of_opcode (encodeCC_op cond tidx) ?_
  change decodeCC _ = _
  simp [decodeCC, hc]

/-! ### encode after decode -/

/-- What the opcode map answers for a word `w` with the opcode `op` (30_encoding R129, R131): nothing for an unassigned opcode,
and otherwise the decoder of a format, for instructions that are encoded in that format with that opcode. -/
inductive OpcodeMap (op : BitVec 8) (w : InstrWord) : Decoded → Prop
  | unassigned (hop : op.toNat = 0 ∨ (0x0B ≤ op.toNat ∧ op.toNat ≤ 0x10) ∨ (0x1A ≤ op.toNat ∧ op.toNat ≤ 0x20) ∨
      (0x27 ≤ op.toNat ∧ op.toNat ≤ 0x30) ∨ 0x37 ≤ op.toNat) : OpcodeMap op w (.illegal w)
  | r (f : RegIdx → RegIdx → RegIdx → Instr) (hop : 0x01 ≤ op.toNat ∧ op.toNat ≤ 0x0A)
      (hf : ∀ rd rn rm, encode (f rd rn rm) = some (encodeR op rd rn rm)) : OpcodeMap op w (decodeR w f)
  | i (f : RegIdx → RegIdx → Imm → Instr)
      (hop : (0x11 ≤ op.toNat ∧ op.toNat ≤ 0x17) ∨ (0x21 ≤ op.toNat ∧ op.toNat ≤ 0x26))
      (hf : ∀ rd rn imm, encode (f rd rn imm) = some (encodeI op rd rn imm)) : OpcodeMap op w (decodeI w f)
  | im (f : RegIdx → Imm → Instr) (hop : op.toNat = 0x18 ∨ op.toNat = 0x19)
      (hf : ∀ rd imm, encode (f rd imm) = some (encodeIM op rd imm)) : OpcodeMap op w (decodeIM w f)
  | b (f : Target 24 → Instr) (hop : op.toNat = 0x31 ∨ op.toNat = 0x32) (hf : ∀ t, encode (f t) = encodeB op t) :
      OpcodeMap op w (decodeB w f)
  | br (hop : op = 0x33) : OpcodeMap op w (decodeBR w)
  | cb (f : RegIdx → Target 19 → Instr) (hop : op.toNat = 0x34 ∨ op.toNat = 0x35)
      (hf : ∀ rt t, encode (f rt t) = encodeCB op rt t) : OpcodeMap op w (decodeCB w f)
  | cc (hop : op = 0x36) : OpcodeMap op w (decodeCC w)

/-- One row of the opcode map: the opcode is the row's, or the rows below decide. -/
theorem OpcodeMap.row {op k : BitVec 8} {w : InstrWord} {d e : Decoded} (hd : OpcodeMap k w d)
    (he : op ≠ k → OpcodeMap op w e) : OpcodeMap op w (if op = k then d else e) := by
  split
  next h => rw [h]; exact hd
  next h => exact he h

/-- The decoder follows the opcode map. -/
theorem opcodeMap_decode (w : InstrWord) : OpcodeMap (w.extractLsb' 24 8) w (decode w) := by
  unfold decode
  generalize w.extractLsb' 24 8 = op
  unfold decodeOp
  iterate 10 refine .row (.r _ (by decide) fun _ _ _ => rfl) fun _ => ?_
  iterate 7 refine .row (.i _ (by decide) fun _ _ _ => rfl) fun _ => ?_
  iterate 2 refine .row (.im _ (by decide) fun _ _ => rfl) fun _ => ?_
  iterate 6 refine .row (.i _ (by decide) fun _ _ _ => rfl) fun _ => ?_
  iterate 2 refine .row (.b _ (by decide) fun _ => rfl) fun _ => ?_
  refine .row (.br rfl) fun _ => ?_
  iterate 2 refine .row (.cb _ (by decide) fun _ _ => rfl) fun _ => ?_
  refine .row (.cc rfl) fun _ => .unassigned ?_
  bv_omega

section Fields

variable {w : InstrWord}

/-- An R-format word is illegal exactly when a must-be-zero field is not zero (30_encoding R121, R135). -/
theorem decodeR_eq_illegal {f : RegIdx → RegIdx → RegIdx → Instr} :
    decodeR w f = .illegal w ↔ ¬ (w.extractLsb' 21 3 = 0 ∧ w.extractLsb' 10 6 = 0) := by
  simp [decodeR]

/-- An I-format or D-format word is illegal exactly when its must-be-zero field is not zero (30_encoding R122, R124, R135). -/
theorem decodeI_eq_illegal {f : RegIdx → RegIdx → Imm → Instr} :
    decodeI w f = .illegal w ↔ ¬ w.extractLsb' 22 2 = 0 := by
  simp [decodeI]

/-- An IM-format word is illegal for its must-be-zero field, or for bits 9:5 other than 31 (30_encoding R123, R135). -/
theorem decodeIM_eq_illegal {f : RegIdx → Imm → Instr} :
    decodeIM w f = .illegal w ↔ ¬ (w.extractLsb' 22 2 = 0 ∧ w.extractLsb' 5 5 = 31#5) := by
  simp [decodeIM]

/-- A BR-format word is illegal exactly when a must-be-zero field is not zero (30_encoding R126, R135). -/
theorem decodeBR_eq_illegal :
    decodeBR w = .illegal w ↔ ¬ (w.extractLsb' 10 14 = 0 ∧ w.extractLsb' 0 5 = 0) := by
  simp [decodeBR]

/-- A CC-format word is illegal exactly when bit 4 is not zero, whatever its condition is (30_encoding R128, R135, R136). -/
theorem decodeCC_eq_illegal : decodeCC w = .illegal w ↔ ¬ w.extractLsb' 4 1 = 0 := by
  unfold decodeCC
  cases condOfBits (w.extractLsb' 0 4) <;> simp

/-! A format whose fixed fields are as they must be makes the word again from the fields that are left. -/

theorem encodeR_fields (h : w.extractLsb' 21 3 = 0 ∧ w.extractLsb' 10 6 = 0) :
    encodeR (w.extractLsb' 24 8) (w.extractLsb' 0 5) (w.extractLsb' 5 5) (w.extractLsb' 16 5) = w := by
  have hw := word_of_fields_R w
  obtain ⟨h21, h10⟩ := h
  rwa [h21, h10] at hw

theorem encodeI_fields (h : w.extractLsb' 22 2 = 0) :
    encodeI (w.extractLsb' 24 8) (w.extractLsb' 0 5) (w.extractLsb' 5 5) (w.extractLsb' 10 12) = w := by
  have hw := word_of_fields_I w
  rwa [h] at hw

theorem encodeIM_fields (h : w.extractLsb' 22 2 = 0 ∧ w.extractLsb' 5 5 = 31#5) :
    encodeIM (w.extractLsb' 24 8) (w.extractLsb' 0 5) (w.extractLsb' 10 12) = w := by
  have hw := encodeI_fields h.1
  rwa [h.2] at hw

theorem encodeBR_fields (hop : w.extractLsb' 24 8 = 0x33) (h : w.extractLsb' 10 14 = 0 ∧ w.extractLsb' 0 5 = 0) :
    encodeBR (w.extractLsb' 5 5) = w := by
  have hw := word_of_fields_BR w
  obtain ⟨h10, h0⟩ := h
  rwa [hop, h10, h0] at hw

theorem encodeCC_fields (hop : w.extractLsb' 24 8 = 0x36) (h : w.extractLsb' 4 1 = 0) :
    encodeCC (w.extractLsb' 0 4) (w.extractLsb' 5 19) = w := by
  have hw := word_of_fields_CC w
  rwa [hop, h] at hw

/-- What a CC-format word decodes to is encoded with the word's condition bits, named or not (30_encoding R128, R136). -/
theorem encodeDecoded_decodeCC (h : w.extractLsb' 4 1 = 0) :
    encodeDecoded (decodeCC w) = some (encodeCC (w.extractLsb' 0 4) (w.extractLsb' 5 19)) := by
  rw [decodeCC, if_pos h]
  cases hc : condOfBits (w.extractLsb' 0 4) with
  | some c => rw [← bits_of_condOfBits hc]; exact encode_bCond _ c
  | none => rfl

/-- A word the decoder does not call illegal is the word of what it decodes to (30_encoding R139). -/
theorem encodeDecoded_decode (h : decode w ≠ .illegal w) : encodeDecoded (decode w) = some w := by
  have hmap := opcodeMap_decode w
  generalize decode w = d at h hmap ⊢
  cases hmap with
  | unassigned => exact absurd rfl h
  | r f _ hf =>
    have hz := decodeR_eq_illegal.not_left.mp h
    rw [decodeR, if_pos hz, encodeDecoded, hf, encodeR_fields hz]
  | i f _ hf =>
    have hz := decodeI_eq_illegal.not_left.mp h
    rw [decodeI, if_pos hz, encodeDecoded, hf, encodeI_fields hz]
  | im f _ hf =>
    have hz := decodeIM_eq_illegal.not_left.mp h
    rw [decodeIM, if_pos hz, encodeDecoded, hf, encodeIM_fields hz]
  | b f _ hf => rw [decodeB, encodeDecoded, hf, encodeB, word_of_fields_B]
  | br hop =>
    have hz := decodeBR_eq_illegal.not_left.mp h
    rw [decodeBR, if_pos hz, encodeDecoded, encode, encodeBR_fields hop hz]
  | cb f _ hf => rw [decodeCB, encodeDecoded, hf, encodeCB, word_of_fields_CB]
  | cc hop =>
    have hz := decodeCC_eq_illegal.not_left.mp h
    rw [encodeDecoded_decodeCC hz, encodeCC_fields hop hz]

end Fields

/-! ### The obligations -/

/-- Settles O2: both directions go by the word's format. -/
theorem encodeFollowsTheFormulaAndDecodeInvertsIt : Obligations.EncodeFollowsTheFormulaAndDecodeInvertsIt := by
  refine ⟨fun i w h => (encode_spec h).1, fun i hi => ?_, fun w h => encodeDecoded_decode h⟩
  obtain ⟨w, hw⟩ := exists_encode hi
  exact ⟨w, hw, (encode_spec hw).2⟩

/-- Settles O3: the row of the opcode map says which fields must be zero; with them zero no clause is left. -/
theorem illegalWordsAreTheReservedOnesAndFault : Obligations.IllegalWordsAreTheReservedOnesAndFault := by
  refine ⟨fun w => ?_, fun w s h => ⟨_, by rw [h]; rfl, faults_takeFault s _ _ _⟩⟩
  have hmap := opcodeMap_decode w
  generalize decode w = d, w.extractLsb' 24 8 = op at hmap ⊢
  cases hmap with
  | unassigned hop => exact iff_of_true rfl (.inl hop)
  | r f hop _ =>
    rw [decodeR_eq_illegal]
    exact ⟨fun h => .inr (.inl ⟨hop, not_and_or.mp h⟩), fun h hz => by simp [hz] at h; omega⟩
  | i f hop _ =>
    rw [decodeI_eq_illegal]
    exact ⟨fun h => .inr (.inr (.inl ⟨by omega, h⟩)), fun h hz => by simp [hz] at h; omega⟩
  | im f hop _ =>
    rw [decodeIM_eq_illegal]
    exact ⟨fun h => .inr (.inr ((not_and_or.mp h).imp (⟨by omega, ·⟩) fun hrn => .inl ⟨hop, hrn⟩)),
      fun h hz => by simp [hz] at h; omega⟩
  | b f hop _ => exact ⟨nofun, fun h => by omega⟩
  | br hop =>
    rw [decodeBR_eq_illegal]
    exact ⟨fun h => .inr (.inr (.inr (.inr (.inl ⟨by simp [hop], not_and_or.mp h⟩)))),
      fun h hz => by simp [hz, hop] at h⟩
  | cb f hop _ => exact ⟨nofun, fun h => by omega⟩
  | cc hop =>
    rw [decodeCC_eq_illegal]
    exact ⟨fun h => .inr (.inr (.inr (.inr (.inr ⟨by simp [hop], h⟩)))), fun h hz => by simp [hz, hop] at h⟩

/-- Settles O4: no condition has the number, so the decoder names no instruction and execution takes the fault. -/
theorem reservedConditionDecodesAndFaults : Obligations.ReservedConditionDecodesAndFaults := by
  intro cond tidx s h
  have hd := decode_encodeCC_reserved tidx h
  exact ⟨hd, _, congrArg (execDecoded · s) hd, faults_takeFault s _ _ _⟩

/-- Settles O1, by evaluation. -/
theorem specExampleWordsDecode : Obligations.SpecExampleWordsDecode := by
  unfold Obligations.SpecExampleWordsDecode
  decide

end Sys2Proof.Machine

/-! PROOFS. The assembler: what a parsed operand, line and program can be, and what `parse` answers. -/

namespace Sys2Proof.Machine

/-! ### What a computation yields, when it yields anything -/

section Yields

variable {α β : Type} {P : α → Prop} {Q : β → Prop} {x y : Except LineError α}

/-- Whatever the computation yields without an error satisfies `P`. -/
def Yields (x : Except LineError α) (P : α → Prop) : Prop := ∀ a, x = .ok a → P a

theorem Yields.error (e : LineError) : Yields (.error e) P := nofun

theorem Yields.ok {a : α} (h : P a) : Yields (.ok a) P := by
  rintro _ ⟨⟩; exact h

theorem Yields.bind {k : α → Except LineError β} (hx : Yields x P) (hk : ∀ a, P a → Yields (k a) Q) :
    Yields (x >>= k) Q := by
  cases x with
  | ok a => exact hk a (hx a rfl)
  | error e => exact Yields.error e

theorem Yields.map {f : α → β} (hx : Yields x P) (hf : ∀ a, P a → Q (f a)) : Yields (x.map f) Q := by
  cases x with
  | ok a => exact Yields.ok (hf a (hx a rfl))
  | error e => exact Yields.error e

/-- One row of a table: the row's computation, or the rows below. -/
theorem Yields.row {c : Prop} [Decidable c] (hx : Yields x P) (hy : Yields y P) : Yields (if c then x else y) P := by
  split
  · exact hx
  · exact hy

theorem Yields.any (x : Except LineError α) : Yields x fun _ => True := fun _ _ => trivial

end Yields

/-! ### An instruction line holds no target index (30_encoding R112, R150) -/

section Lines

variable {n w : Nat} {ops : List (List Char)}

/-- A target operand is a label, so it holds no index yet. -/
theorem yields_targetOperand (t : List Char) : Yields (targetOperand w t) fun t => targetIndex t = 0 := by
  unfold targetOperand
  exact .row (.ok rfl) (.error _)

theorem yields_parseR {f : RegIdx → RegIdx → RegIdx → Instr} (hf : ∀ rd rn rm, targetAtMost n (f rd rn rm)) :
    Yields (parseR f ops) (targetAtMost n) := by
  unfold parseR
  split
  · exact (Yields.any _).bind fun _ _ => (Yields.any _).bind fun _ _ => (Yields.any _).bind fun _ _ => .ok (hf _ _ _)
  · exact .error _

theorem yields_parseI {f : RegIdx → RegIdx → Imm → Instr} (hf : ∀ rd rn imm, targetAtMost n (f rd rn imm)) :
    Yields (parseI f ops) (targetAtMost n) := by
  unfold parseI
  split
  · exact (Yields.any _).bind fun _ _ => (Yields.any _).bind fun _ _ => (Yields.any _).bind fun _ _ => .ok (hf _ _ _)
  · exact .error _

theorem yields_parseIM {f : RegIdx → Imm → Instr} (hf : ∀ rd imm, targetAtMost n (f rd imm)) :
    Yields (parseIM f ops) (targetAtMost n) := by
  unfold parseIM
  split
  · exact (Yields.any _).bind fun _ _ => (Yields.any _).bind fun _ _ => .ok (hf _ _)
  · exact .error _

theorem yields_parseD {f : RegIdx → RegIdx → Imm → Instr} (hf : ∀ rt rn imm, targetAtMost n (f rt rn imm)) :
    Yields (parseD f ops) (targetAtMost n) := by
  unfold parseD
  split
  · exact (Yields.any _).bind fun _ _ => (Yields.any _).bind fun _ _ => .ok (hf _ _ _)
  · exact .error _

theorem yields_parseTarget {f : Target w → Instr} (hf : ∀ t, targetIndex t = 0 → targetAtMost n (f t)) :
    Yields (parseTarget f ops) (targetAtMost n) := by
  unfold parseTarget
  split
  · exact (yields_targetOperand _).bind fun t ht => .ok (hf t ht)
  · exact .error _

theorem yields_parseBR : Yields (parseBR ops) (targetAtMost n) := by
  unfold parseBR
  split
  · exact (Yields.any _).bind fun _ _ => .ok trivial
  · exact .error _

theorem yields_parseCB {f : RegIdx → Target 19 → Instr} (hf : ∀ rt t, targetIndex t = 0 → targetAtMost n (f rt t)) :
    Yields (parseCB f ops) (targetAtMost n) := by
  unfold parseCB
  split
  · exact (Yields.any _).bind fun rt _ => (yields_targetOperand _).bind fun t ht => .ok (hf rt t ht)
  · exact .error _

/-- The mnemonics' table: an instruction is made by the parser of its operands, which gives it no target index. -/
theorem yields_parseOperands (n : Nat) (mnemonic : List Char) (ops : List (List Char)) :
    Yields (parseOperands mnemonic ops) (targetAtMost n) := by
  unfold parseOperands
  iterate 10 refine .row (yields_parseR fun _ _ _ => trivial) ?_
  iterate 7 refine .row (yields_parseI fun _ _ _ => trivial) ?_
  iterate 2 refine .row (yields_parseIM fun _ _ => trivial) ?_
  iterate 6 refine .row (yields_parseD fun _ _ _ => trivial) ?_
  iterate 2 refine .row (yields_parseTarget fun _ ht => ht.le.trans n.zero_le) ?_
  refine .row yields_parseBR ?_
  iterate 2 refine .row (yields_parseCB fun _ _ ht => ht.le.trans n.zero_le) ?_
  iterate 10 refine .row (yields_parseTarget fun _ ht => ht.le.trans n.zero_le) ?_
  exact .error _

end Lines

/-! ### Pass 1 (30_encoding R140 to R142) -/

/-- What pass 1 keeps: a label stands for an index of at most the number of instructions so far, and no instruction holds a
target index above `n`. -/
structure Pass1.Bounded (n : Nat) (p : Pass1) : Prop where
  labels : ∀ e ∈ p.labels, e.2 ≤ p.program.length
  targets : ∀ q ∈ p.program, targetAtMost n q.2

section Pass1

variable {n : Nat} {p : Pass1}

theorem Pass1.Bounded.define (hp : p.Bounded n) (line : Nat) (l : Label) : (p.define line l).Bounded n := by
  unfold Pass1.define
  split
  · exact ⟨hp.labels, hp.targets⟩
  · refine ⟨fun e he => ?_, hp.targets⟩
    obtain he | rfl := List.mem_append.mp he |>.imp_right List.mem_singleton.mp
    · exact hp.labels e he
    · exact le_rfl

theorem Pass1.Bounded.line (hp : p.Bounded n) (line : Nat) (raw : List Char) : (p.line line raw).Bounded n := by
  unfold Pass1.line
  extract_lets t
  split
  · exact hp
  split
  · exact hp.define line _
  split
  next i hi =>
    refine ⟨fun e he => ?_, fun q hq => ?_⟩
    · exact (hp.labels e he).trans (by simp)
    · obtain hq | rfl := List.mem_append.mp hq |>.imp_right List.mem_singleton.mp
      · exact hp.targets q hq
      · exact yields_parseOperands n _ _ i hi
  next => exact ⟨hp.labels, hp.targets⟩

theorem Pass1.Bounded.lines (raws : List (List Char)) :
    ∀ {p : Pass1}, p.Bounded n → ∀ line, (p.lines line raws).Bounded n := by
  induction raws with
  | nil => exact fun hp _ => hp
  | cons raw rest ih => exact fun hp line => ih (hp.line line raw) (line + 1)

/-- Pass 1 over a source text. -/
theorem bounded_pass1 (n : Nat) (source : List Char) : (pass1 source).Bounded n :=
  Pass1.Bounded.lines _ ⟨List.forall_mem_nil _, List.forall_mem_nil _⟩ 1

end Pass1

/-! ### Pass 2 (30_encoding R152, R153) -/

section Pass2

variable {w n : Nat} {labels : List (Label × Nat)} {l : Label}

theorem resolveTarget_of_known {k : Nat} (h : lookupLabel labels l = some k) :
    resolveTarget labels (.unresolved l : Target w) = .ok (.resolved (BitVec.ofNat w k)) := by
  rw [resolveTarget, h]

theorem resolveTarget_of_unknown (h : lookupLabel labels l = none) :
    resolveTarget labels (.unresolved l : Target w) = .error (.undefinedLabel l) := by
  rw [resolveTarget, h]

/-- The index a label stands for is one of the table. -/
theorem lookupLabel_le (hl : ∀ e ∈ labels, e.2 ≤ n) {k : Nat} (h : lookupLabel labels l = some k) : k ≤ n := by
  obtain ⟨before, after, rfl, -⟩ := List.lookup_eq_some_iff.mp h
  exact hl (l, k) (by simp)

/-- A resolved target is an index within the bound of the label table, or the index it was before. -/
theorem yields_resolveTarget (hl : ∀ e ∈ labels, e.2 ≤ n) {t : Target w} (ht : targetIndex t ≤ n) :
    Yields (resolveTarget labels t) fun t' => t'.isResolved = true ∧ targetIndex t' ≤ n := by
  cases t with
  | resolved tidx => exact .ok ⟨rfl, ht⟩
  | unresolved l =>
    cases h : lookupLabel labels l with
    | none => rw [resolveTarget_of_unknown h]; exact .error _
    | some k =>
      rw [resolveTarget_of_known h]
      refine .ok ⟨rfl, ?_⟩
      rw [targetIndex, BitVec.toNat_ofNat]
      exact (Nat.mod_le _ _).trans (lookupLabel_le hl h)

/-- A resolved instruction is well-formed, its target index within the bound (30_encoding R152). -/
theorem yields_resolveInstr (hl : ∀ e ∈ labels, e.2 ≤ n) {i : Instr} (hi : targetAtMost n i) :
    Yields (resolveInstr labels i) fun j => j.wellFormed = true ∧ targetAtMost n j := by
  cases i with
  | b t | bl t | cbz _ t | cbnz _ t | bEq t | bNe t | bLt t | bLe t | bGt t | bGe t | bLo t | bLs t | bHi t | bHs t =>
    exact (yields_resolveTarget hl hi).map fun _ ht => ht
  | _ => exact .ok ⟨rfl, trivial⟩

variable (labels)

/-- Without an error pass 2 leaves out no instruction. -/
theorem length_pass2 : ∀ {program : List (Nat × Instr)}, (pass2 labels program).2 = [] →
    (pass2 labels program).1.length = program.length
  | [], _ => rfl
  | (line, i) :: rest, h => by
    unfold pass2 at h ⊢
    cases hi : resolveInstr labels i with
    | ok j => rw [hi] at h; exact congrArg (· + 1) (length_pass2 h)
    | error e => rw [hi] at h; cases h

/-- Every instruction of pass 2 is one of pass 1, resolved. -/
theorem mem_pass2 {q : Nat × Instr} : ∀ {program : List (Nat × Instr)}, q ∈ (pass2 labels program).1 →
    ∃ r ∈ program, resolveInstr labels r.2 = .ok q.2
  | [], h => nomatch h
  | (line, i) :: rest, h => by
    unfold pass2 at h
    cases hi : resolveInstr labels i with
    | ok j =>
      rw [hi] at h
      obtain rfl | h := List.mem_cons.mp h
      · exact ⟨(line, i), List.mem_cons_self, hi⟩
      · obtain ⟨r, hr, hres⟩ := mem_pass2 h
        exact ⟨r, List.mem_cons_of_mem _ hr, hres⟩
    | error e =>
      rw [hi] at h
      obtain ⟨r, hr, hres⟩ := mem_pass2 h
      exact ⟨r, List.mem_cons_of_mem _ hr, hres⟩

end Pass2

/-! ### The result (30_encoding R151, R153 to R155) -/

section Parse

variable {source : List Char}

/-! The three answers of `parse`: the errors of pass 1, those of pass 2 and of the length, or the program of pass 2. -/

theorem parse_of_pass1_errors (h : (pass1 source).errors ≠ []) : parse source =
    .error ((pass1 source).errors ++
      if Config.pass2AfterFailedPass1 then (pass2 (pass1 source).labels (pass1 source).program).2 else []) :=
  if_neg h

theorem parse_of_late_errors (h : (pass1 source).errors = [])
    (h' : (pass2 (pass1 source).labels (pass1 source).program).2 ++ lengthErrors (pass1 source).program ≠ []) :
    parse source =
      .error ((pass2 (pass1 source).labels (pass1 source).program).2 ++ lengthErrors (pass1 source).program) :=
  (if_pos h).trans (if_neg h')

theorem parse_of_no_errors (h : (pass1 source).errors = [])
    (h' : (pass2 (pass1 source).labels (pass1 source).program).2 ++ lengthErrors (pass1 source).program = []) :
    parse source = .ok (pass2 (pass1 source).labels (pass1 source).program).1 :=
  (if_pos h).trans (if_pos h')

/-- Inversion of a parse that gives a program: no pass has an error, and it is what pass 2 made. -/
theorem parse_ok {p : List (Nat × Instr)} (h : parse source = .ok p) :
    (pass1 source).errors = [] ∧ (pass2 (pass1 source).labels (pass1 source).program).2 = [] ∧
      lengthErrors (pass1 source).program = [] ∧ p = (pass2 (pass1 source).labels (pass1 source).program).1 := by
  by_cases h1 : (pass1 source).errors = []
  · by_cases h2 : (pass2 (pass1 source).labels (pass1 source).program).2 ++ lengthErrors (pass1 source).program = []
    · obtain ⟨hpass2, hlen⟩ := List.append_eq_nil_iff.mp h2
      cases (parse_of_no_errors h1 h2).symm.trans h
      exact ⟨h1, hpass2, hlen, rfl⟩
    · cases (parse_of_late_errors h1 h2).symm.trans h
  · cases (parse_of_pass1_errors h1).symm.trans h

/-- Exactly the programs of at most MAX_PROG instructions give no length error (30_encoding R154). -/
theorem lengthErrors_eq_nil {program : List (Nat × Instr)} :
    lengthErrors program = [] ↔ program.length ≤ Config.maxProg := by
  simp [lengthErrors]

/-- An accepted program is resolved, and its targets and its length are within their bounds (30_encoding R152, R154). -/
theorem resolved_of_parse_ok {p : List (Nat × Instr)} (h : parse source = .ok p) :
    p.length ≤ Config.maxProg ∧ ∀ q ∈ p, q.2.wellFormed = true ∧ targetAtMost p.length q.2 := by
  obtain ⟨-, hpass2, hlen, rfl⟩ := parse_ok h
  rw [length_pass2 _ hpass2]
  refine ⟨lengthErrors_eq_nil.mp hlen, fun q hq => ?_⟩
  obtain ⟨r, hr, hres⟩ := mem_pass2 _ hq
  have hbound := bounded_pass1 (pass1 source).program.length source
  exact yields_resolveInstr hbound.labels (hbound.targets r hr) q.2 hres

end Parse

/-- The words of well-formed instructions decode one for one to the instructions (30_encoding R139). -/
theorem map_decode_wordsOfProgram {p : List (Nat × Instr)} (h : ∀ q ∈ p, q.2.wellFormed = true) :
    (wordsOfProgram p).map decode = p.map fun q => .instr q.2 := by
  rw [wordsOfProgram, List.map_filterMap, List.filterMap_eq_map_iff_forall_eq_some]
  intro q hq
  obtain ⟨w, hw⟩ := exists_encode (h q hq)
  rw [hw, Option.map_some, (encode_spec hw).2]

/-! ### The obligations -/

/-- Settles O53: a label never stands beyond the program, so pass 2 resolves every target within it. -/
theorem parsedProgramsAreResolvedAndDecode : Obligations.ParsedProgramsAreResolvedAndDecode := by
  intro source p h
  obtain ⟨hlen, hall⟩ := resolved_of_parse_ok h
  exact ⟨hlen, hall, map_decode_wordsOfProgram fun q hq => (hall q hq).1⟩

/-- Settles O51: an index that fits its field is kept, and its byte address does not wrap. -/
theorem labelsResolveToFourTimesTheirIndex : Obligations.LabelsResolveToFourTimesTheirIndex := by
  intro w labels l hw
  refine ⟨fun k hk hlt => ⟨_, resolveTarget_of_known hk, ?_⟩, resolveTarget_of_unknown⟩
  rw [toInt_targetAddress hw, BitVec.toNat_ofNat, Nat.mod_eq_of_lt hlt]

/-- Settles O52: the three answers of `parse`. -/
theorem parseReportsEveryErrorAndNoProgram : Obligations.ParseReportsEveryErrorAndNoProgram := by
  intro source p q
  refine ⟨fun h1 => ⟨_, parse_of_pass1_errors h1, fun e he => List.mem_append_left _ he⟩, fun h1 h2 =>
    ⟨_, parse_of_late_errors h1 (List.append_ne_nil_of_left_ne_nil h2 _), fun e he => List.mem_append_left _ he⟩,
    fun es hes => ?_⟩
  by_cases h1 : p.errors = []
  · by_cases h2 : q.2 ++ lengthErrors p.program = []
    · cases (parse_of_no_errors h1 h2).symm.trans hes
    · cases (parse_of_late_errors h1 h2).symm.trans hes
      exact ⟨h2, fun e he => .inr (List.mem_append.mp he)⟩
  · cases (parse_of_pass1_errors h1).symm.trans hes
    refine ⟨List.append_ne_nil_of_left_ne_nil h1 _, fun e he => ?_⟩
    obtain he | he := List.mem_append.mp he
    · exact .inl he
    · split at he
      · exact .inr (.inl he)
      · cases he

/-- Settles O50, by evaluation. -/
theorem sourceExampleAssembles : Obligations.SourceExampleAssembles := by
  unfold Obligations.SourceExampleAssembles
  decide

end Sys2Proof.Machine

/-! PROOFS. The register results: what an instruction whose operation is a result answers, and the R-type instructions. -/

namespace Sys2Proof.Machine

/-! ### Operations that are results -/

section Results

variable {s : State} {i : Instr} {rd : RegIdx} {r : Word} {v : Int}

/-- An instruction whose operation is a result of signed value `v` delivers `v` and does nothing else (10_state R33, R34). -/
theorem exec_result (hop : operation s i = .result rd r) (hv : r.toInt = v) :
    ∃ t, exec i s = .next t ∧ ResultOnly i rd v s t := by
  subst hv
  exact ⟨_, by rw [exec_eq_perform, hop, Operation.perform], resultOnly_writeResult s i rd r⟩

/-- The same with the flags set from the result, also where register 31 discards it (40_rtype_register R181). -/
theorem exec_resultFlags (hop : operation s i = .resultFlags rd r) (hv : r.toInt = v) :
    ∃ t, exec i s = .next t ∧ ResultAndFlags i rd v s t := by
  subst hv
  exact ⟨_, by rw [exec_eq_perform, hop, Operation.perform], resultAndFlags_writeResultFlags s i rd r⟩

end Results

/-! ### The shifts, in the spec's formulas -/

/-- LSL multiplies the signed value, by a power that only the amount modulo 64 decides (40_rtype_register R190). -/
theorem toInt_shiftLeft (a b : Word) : (shiftLeft a b).toInt = specWrap64 (a.toInt * 2 ^ (b.toNat % 64)) := by
  rw [shiftLeft, toInt_wrap64_spec, shiftAmount, u64]

/-- LSR divides the unsigned value, by a power that only the amount modulo 64 decides (40_rtype_register R191). -/
theorem toInt_shiftRight (a b : Word) :
    (shiftRight a b).toInt = specWrap64 ((a.toNat / 2 ^ (b.toNat % 64) : Nat) : Int) := by
  rw [shiftRight, toInt_wrap64_spec, shiftAmount, u64, u64]

/-! ### The obligations -/

/-- Settles O17: both results are wrapped by the formula of R16. -/
theorem addAndSubWriteTheWrappedResult : Obligations.AddAndSubWriteTheWrappedResult := by
  intro rd rn rm s
  exact ⟨⟨rfl, exec_result rfl (toInt_wrap64_spec _)⟩, ⟨rfl, exec_result rfl (toInt_wrap64_spec _)⟩⟩

/-- Settles O18: as O17, the flags set from the same wrapped result. -/
theorem addsAndSubsWriteTheResultAndSetTheFlags : Obligations.AddsAndSubsWriteTheResultAndSetTheFlags := by
  intro rd rn rm s
  exact ⟨⟨rfl, exec_resultFlags rfl (toInt_wrap64_spec _)⟩, ⟨rfl, exec_resultFlags rfl (toInt_wrap64_spec _)⟩⟩

/-- Settles O19: the results are 64-bit patterns already, so nothing is wrapped. -/
theorem andOrrEorWriteTheBitwiseResult : Obligations.AndOrrEorWriteTheBitwiseResult := by
  intro rd rn rm s
  exact ⟨⟨rfl, exec_result rfl rfl⟩, ⟨rfl, exec_result rfl rfl⟩, ⟨rfl, exec_result rfl rfl⟩⟩

/-- Settles O20: the product of the signed values, wrapped by the formula of R16. -/
theorem mulWritesTheLowHalfOfTheProduct : Obligations.MulWritesTheLowHalfOfTheProduct := by
  intro rd rn rm s
  exact ⟨rfl, exec_result rfl (toInt_wrap64_spec _)⟩

/-- Settles O21, by the formulas of the two shifts. -/
theorem shiftsTakeTheirAmountModulo64 : Obligations.ShiftsTakeTheirAmountModulo64 := by
  intro rd rn rm s
  exact ⟨⟨rfl, exec_result rfl (toInt_shiftLeft _ _)⟩, ⟨rfl, exec_result rfl (toInt_shiftRight _ _)⟩⟩

end Sys2Proof.Machine

/-! PROOFS. The I-type instructions: results with an immediate, which enters as a signed integer or as its 64-bit pattern. -/

namespace Sys2Proof.Machine

/-! ### The immediate, and MOVK's result -/

/-- 64 bits hold every signed immediate, so nothing is wrapped (41_itype_immediate R200). -/
theorem toInt_immPattern (imm : Imm) : (immPattern imm).toInt = imm.toInt := by
  rw [immPattern_eq, BitVec.toInt_signExtend_of_le (by decide)]

/-- MOVK's result, in the spec's formula (41_itype_immediate R209). -/
theorem toInt_keepUpper (old : Word) (imm : Imm) : (keepUpper old imm).toInt =
    specWrap64 (old.toNat - (old.toNat % 2 ^ 16 : Nat) + imm.toInt % 2 ^ 16) := by
  rw [keepUpper, toInt_wrap64_spec, u64, immValue]

/-- MOVK keeps bits 63:16 (41_itype_immediate R209). -/
theorem extractLsb'_upper_keepUpper (old : Word) (imm : Imm) :
    (keepUpper old imm).extractLsb' 16 48 = old.extractLsb' 16 48 := by
  rw [keepUpper_eq, BitVec.extractLsb'_append_eq_left]

/-- MOVK puts the immediate, sign-extended to 16 bits, into bits 15:0 (41_itype_immediate R209). -/
theorem extractLsb'_lower_keepUpper (old : Word) (imm : Imm) :
    (keepUpper old imm).extractLsb' 0 16 = imm.signExtend 16 := by
  rw [keepUpper_eq, BitVec.extractLsb'_append_eq_right]

/-- A result is what its register holds afterwards (10_state R33). -/
theorem x_of_resultOnly {i : Instr} {rd : RegIdx} {r : Word} {s t : State} (h : ResultOnly i rd r.toInt s t)
    (hrd : rd ≠ 31#5) : t.x rd = r := by
  obtain ⟨_, ⟨hx, _⟩, _⟩ := h
  rw [if_neg hrd] at hx
  exact BitVec.toInt_inj.mp hx

/-! ### The obligations -/

/-- Settles O22: both results are wrapped by the formula of R16. -/
theorem addiAndSubiWriteTheWrappedResult : Obligations.AddiAndSubiWriteTheWrappedResult := by
  intro rd rn imm s
  exact ⟨⟨rfl, exec_result rfl (toInt_wrap64_spec _)⟩, ⟨rfl, exec_result rfl (toInt_wrap64_spec _)⟩⟩

/-- Settles O23: as O22, the flags set from the same wrapped result. -/
theorem addisAndSubisWriteTheResultAndSetTheFlags : Obligations.AddisAndSubisWriteTheResultAndSetTheFlags := by
  intro rd rn imm s
  exact ⟨⟨rfl, exec_resultFlags rfl (toInt_wrap64_spec _)⟩, ⟨rfl, exec_resultFlags rfl (toInt_wrap64_spec _)⟩⟩

/-- Settles O24: the operand of each is the immediate's 64-bit pattern. -/
theorem andiOrriEoriUseTheSignExtendedImmediate : Obligations.AndiOrriEoriUseTheSignExtendedImmediate := by
  intro rd rn imm s
  rw [← immPattern_eq]
  exact ⟨⟨rfl, exec_result rfl rfl⟩, ⟨rfl, exec_result rfl rfl⟩, ⟨rfl, exec_result rfl rfl⟩⟩

/-- Settles O25: the result is the immediate's pattern, of the immediate's signed value. -/
theorem movzWritesTheImmediate : Obligations.MovzWritesTheImmediate := by
  intro rd imm s
  exact ⟨rfl, exec_result rfl (toInt_immPattern imm)⟩

/-- Settles O26: the formula of R209, whose result has the old upper 48 bits and the immediate below them. -/
theorem movkReplacesTheLowSixteenBits : Obligations.MovkReplacesTheLowSixteenBits := by
  intro rd imm s
  obtain ⟨t, ht, hres⟩ := exec_result (s := s) (i := .movk rd imm) rfl rfl
  refine ⟨rfl, t, ht, toInt_keepUpper _ _ ▸ hres, fun hrd => ?_⟩
  rw [x_of_resultOnly hres hrd]
  exact ⟨extractLsb'_upper_keepUpper _ _, extractLsb'_lower_keepUpper _ _⟩

end Sys2Proof.Machine

/-! PROOFS. The D-type instructions: loads and stores, by what the access check answers. -/

namespace Sys2Proof.Machine

/-! ### The values loads deliver -/

/-- A 64-bit register holds every value of its signed range as it is (00_scope R16). -/
theorem toInt_wrap64_of_range {z : Int} (hlo : -2 ^ 63 ≤ z) (hhi : z < 2 ^ 63) : (wrap64 z).toInt = z := by
  rw [toInt_wrap64]; omega

/-- What is wrapped to 64 bits already is not wrapped again (42_dtype_load_store R221). -/
theorem toInt_wrap64_specWrap64 (z : Int) : (wrap64 (specWrap64 z)).toInt = specWrap64 z := by
  rw [← toInt_wrap64_spec, wrap64_toInt]

/-- A register holds every sign-extended word (42_dtype_load_store R223). -/
theorem toInt_wrap64_specWrap32 (z : Int) : (wrap64 (specWrap32 z)).toInt = specWrap32 z := by
  apply toInt_wrap64_of_range <;> rw [specWrap32] <;> omega

/-- A register holds every zero-extended byte (42_dtype_load_store R225). -/
theorem toInt_wrap64_byte (m : Memory) (a : Nat) :
    (wrap64 (littleEndian m a 1)).toInt = littleEndian m a 1 := by
  have hlt : littleEndian m a 1 < 256 := readLE_eq_littleEndian m a 1 ▸ readLE_lt m a 1
  apply toInt_wrap64_of_range <;> omega

/-! ### Operations that access memory -/

section Accesses

variable {s : State} {i : Instr} {rt : RegIdx} {ea v : Int} {n u : Nat} {conv : Nat → Int} {c : FaultCode}

/-- An instruction whose operation is a load delivers the converted bytes where the access raises no fault. -/
theorem exec_load (hop : operation s i = .load rt ea n conv) (hv : conv (littleEndian s.mem ea.toNat n) = v)
    (hw : (wrap64 v).toInt = v) (h : accessFault s.memCap ea n = none) :
    ∃ t, exec i s = .next t ∧ Loads i rt ea v s t :=
  ⟨_, by rw [exec_eq_perform, hop, Operation.perform], loads_load s i h hv hw⟩

/-- An instruction whose operation is a store puts its bytes into memory where the access raises no fault. -/
theorem exec_store (hop : operation s i = .store ea n u) (hu : u < 2 ^ (8 * n))
    (h : accessFault s.memCap ea n = none) : ∃ t, exec i s = .next t ∧ Stores i ea n u s t :=
  ⟨_, by rw [exec_eq_perform, hop, Operation.perform], stores_store s i h hu⟩

/-- A load whose access raises a fault takes it at its effective address (42_dtype_load_store R227). -/
theorem exec_load_of_fault (hop : operation s i = .load rt ea n conv) (h : accessFault s.memCap ea n = some c) :
    ∃ t, exec i s = .next t ∧ Faults c ea (.instr i) s t :=
  ⟨_, by rw [exec_eq_perform, hop, Operation.perform, load_of_fault h], faults_takeFault s c ea _⟩

/-- A store whose access raises a fault takes it at its effective address (42_dtype_load_store R227). -/
theorem exec_store_of_fault (hop : operation s i = .store ea n u) (h : accessFault s.memCap ea n = some c) :
    ∃ t, exec i s = .next t ∧ Faults c ea (.instr i) s t :=
  ⟨_, by rw [exec_eq_perform, hop, Operation.perform, store_of_fault h], faults_takeFault s c ea _⟩

/-- The clauses of an access of a legal width: what follows where the access check finds no fault holds of an aligned address
inside the memory, and the fault it finds is misalignment first, then the range (20_memory R80). -/
theorem exec_access {P : Prop} (hl : Config.legalMemCap s.memCap = true) (hn : n = 1 ∨ n = 4 ∨ n = 8)
    (hok : accessFault s.memCap ea n = none → P)
    (hfault : ∀ c, accessFault s.memCap ea n = some c → ∃ t, exec i s = .next t ∧ Faults c ea (.instr i) s t) :
    (ea % (n : Int) = 0 → 0 ≤ ea → ea < s.memCap → P) ∧
    (ea % (n : Int) ≠ 0 → ∃ t, exec i s = .next t ∧ Faults .misalignedAccess ea (.instr i) s t) ∧
    (ea % (n : Int) = 0 → ea < 0 ∨ s.memCap ≤ ea →
      ∃ t, exec i s = .next t ∧ Faults .outOfBounds ea (.instr i) s t) := by
  obtain ⟨hinside, hmisaligned, houtside⟩ := accessFault_cases (addr := ea) hl hn
  exact ⟨fun ha h0 hcap => hok (hinside ha h0 hcap), fun ha => hfault _ (hmisaligned ha),
    fun ha hr => hfault _ (houtside ha hr)⟩

/-- The clauses of a byte access, which is never misaligned (42_dtype_load_store R225, R226). -/
theorem exec_byteAccess {P : Prop} (hl : Config.legalMemCap s.memCap = true)
    (hok : accessFault s.memCap ea 1 = none → P)
    (hfault : ∀ c, accessFault s.memCap ea 1 = some c → ∃ t, exec i s = .next t ∧ Faults c ea (.instr i) s t) :
    (0 ≤ ea → ea < s.memCap → P) ∧
    (ea < 0 ∨ s.memCap ≤ ea → ∃ t, exec i s = .next t ∧ Faults .outOfBounds ea (.instr i) s t) := by
  obtain ⟨hinside, -, houtside⟩ := exec_access hl (.inl rfl) hok hfault
  exact ⟨hinside (Int.emod_one ea), houtside (Int.emod_one ea)⟩

end Accesses

/-! ### The obligations -/

/-- Settles O27: the doubleword is wrapped by the formula of R16. -/
theorem ldurLoadsOrFaults : Obligations.LdurLoadsOrFaults := by
  rintro rt rn imm s _ rfl hl
  exact ⟨rfl, exec_access hl (.inr (.inr rfl))
    (exec_load rfl (toInt_wrap64_spec _) (toInt_wrap64_specWrap64 _)) fun _ => exec_load_of_fault rfl⟩

/-- Settles O28: the word is sign-extended by the formula of R16. -/
theorem ldurwLoadsOrFaults : Obligations.LdurwLoadsOrFaults := by
  rintro rt rn imm s _ rfl hl
  exact ⟨rfl, exec_access hl (.inr (.inl rfl))
    (exec_load rfl (wrap32_eq _) (toInt_wrap64_specWrap32 _)) fun _ => exec_load_of_fault rfl⟩

/-- Settles O29: the byte is delivered as it is. -/
theorem ldurbLoadsOrFaults : Obligations.LdurbLoadsOrFaults := by
  rintro rt rn imm s _ rfl hl
  exact ⟨rfl, exec_byteAccess hl (exec_load rfl rfl (toInt_wrap64_byte _ _)) fun _ => exec_load_of_fault rfl⟩

/-- Settles O30: the value put out is the register's 64 bits, which eight bytes hold. -/
theorem sturStoresOrFaults : Obligations.SturStoresOrFaults := by
  rintro rt rn imm s _ rfl hl
  exact ⟨rfl, exec_access hl (.inr (.inr rfl))
    (exec_store rfl (Nat.mod_lt _ (by decide))) fun _ => exec_store_of_fault rfl⟩

/-- Settles O31: the value put out is the register's low 32 bits, which four bytes hold. -/
theorem sturwStoresOrFaults : Obligations.SturwStoresOrFaults := by
  rintro rt rn imm s _ rfl hl
  exact ⟨rfl, exec_access hl (.inr (.inl rfl))
    (exec_store rfl (Nat.mod_lt _ (by decide))) fun _ => exec_store_of_fault rfl⟩

/-- Settles O32: the value put out is the register's low 8 bits, which one byte holds. -/
theorem sturbStoresOrFaults : Obligations.SturbStoresOrFaults := by
  rintro rt rn imm s _ rfl hl
  exact ⟨rfl, exec_byteAccess hl
    (exec_store rfl (Nat.mod_lt _ (by decide))) fun _ => exec_store_of_fault rfl⟩

end Sys2Proof.Machine

/-! PROOFS. The branches: the truth table of the conditions, and where each branch leaves the pc. -/

namespace Sys2Proof.Machine

/-! ### The truth table of the conditions -/

/-- The predicates of the truth table, as propositions of the flags (43_branch R249). -/
def truthTable : Cond → Flags → Prop
  | .eq, f => f.z = true
  | .ne, f => ¬ f.z = true
  | .lt, f => f.n ≠ f.v
  | .le, f => f.n ≠ f.v ∨ f.z = true
  | .gt, f => ¬ f.z = true ∧ f.n = f.v
  | .ge, f => f.n = f.v
  | .lo, f => ¬ f.c = true
  | .ls, f => ¬ f.c = true ∨ f.z = true
  | .hi, f => f.c = true ∧ ¬ f.z = true
  | .hs, f => f.c = true

/-- The machine evaluates a condition by its row of the truth table, for all sixteen flag values (43_branch R249). -/
theorem condHolds_iff (f : Flags) (c : Cond) : condHolds f c = true ↔ truthTable c f := by
  cases c <;> simp [condHolds, truthTable]

/-! ### Operations that are branches -/

section Branches

variable {s : State} {i : Instr} {w : Nat} {tidx : BitVec w} {taken : Bool}

/-- A B.cond instruction is a branch on its condition (43_branch R246). -/
theorem operation_bCond (s : State) (t : Target 19) (c : Cond) :
    operation s (.bCond t c) = .branch (condHolds s.flags c) t := by
  cases c <;> rfl

/-- An instruction whose operation is a branch to a program index answers a next state: at four times the index where
the branch is taken, behind the instruction where it is not (43_branch R240). -/
theorem exec_branch (hw : w ≤ 24) (hop : operation s i = .branch taken (.resolved tidx)) :
    ∃ t, exec i s = .next t ∧ (taken = true → JumpsTo i (4 * tidx.toNat) s t) ∧
      (taken = false → FallsThrough i s t) := by
  refine ⟨s.branchIf i taken (.resolved tidx), by rw [exec_eq_perform, hop, Operation.perform], ?_, ?_⟩
  · rintro rfl
    rw [branchIf_true, branch_resolved, ← toInt_targetAddress hw]
    exact jumpsTo_retireTo s i _
  · rintro rfl
    exact fallsThrough_retire s i

/-- Each B.cond carries its condition's number and branches by its condition's row of the truth table (43_branch R246). -/
theorem branchesWhen_bCond (c : Cond) : BranchesWhen (fun t => .bCond t c) c.bits (truthTable c) := by
  intro tidx s
  obtain ⟨t, ht, htaken, hnot⟩ := exec_branch (by decide) (operation_bCond s (.resolved tidx) c)
  rw [condHolds_iff] at htaken
  rw [← Bool.not_eq_true, condHolds_iff] at hnot
  exact ⟨encode_bCond _ c, t, ht, htaken, hnot⟩

end Branches

/-- All 64 bits of a register are zero exactly when its signed value is 0 (43_branch R244). -/
theorem eq_zero_iff_toInt (v : Word) : v = 0 ↔ v.toInt = 0 := by
  rw [← BitVec.toInt_inj]; simp

/-! ### The obligations -/

/-- Settles O33: B is a branch that is always taken. -/
theorem bJumpsToItsTarget : Obligations.BJumpsToItsTarget := by
  intro tidx s
  obtain ⟨t, ht, hjump, -⟩ := exec_branch (s := s) (i := .b (.resolved tidx)) (le_refl 24) rfl
  exact ⟨rfl, t, ht, hjump rfl⟩

/-- Settles O34: one register write, of the next instruction's address, and a jump. -/
theorem blLinksAndJumps : Obligations.BlLinksAndJumps := by
  intro tidx s
  have hexec : exec (.bl (.resolved tidx)) s = .next
      ((s.begin.writeReg 30#5 (nextPc s.pc)).retireTo (.bl (.resolved tidx)) (targetAddress tidx)) := rfl
  have hlink : (nextPc s.pc).toInt = specWrap64 (s.pc.toInt + 4) := toInt_wrap64_spec _
  exact ⟨rfl, _, hexec,
    executed_retireTo (by simp) (by simp) (by simp) (by simp) (by simp) (by simp) (by simp),
    setsRegister_of_writeReg (u := s.begin) hlink (fun _ => rfl) rfl (fun _ => rfl) rfl,
    by simp, fun _ => by simp, by simp, toInt_targetAddress (le_refl 24) tidx⟩

/-- Settles O35: the register's value goes to the pc as it is. -/
theorem brJumpsToTheRegisterUnchecked : Obligations.BrJumpsToTheRegisterUnchecked := by
  intro rn s
  exact ⟨rfl, _, exec_eq_perform _ s, jumpsTo_retireTo s _ (s.x rn)⟩

/-- Settles O36: the two branch on opposite tests of the whole register. -/
theorem cbzAndCbnzTestTheWholeRegister : Obligations.CbzAndCbnzTestTheWholeRegister := by
  intro rt tidx s
  obtain ⟨t, ht, hz, hnz⟩ := exec_branch (s := s) (i := .cbz rt (.resolved tidx)) (by decide) rfl
  obtain ⟨u, hu, hnz', hz'⟩ := exec_branch (s := s) (i := .cbnz rt (.resolved tidx)) (by decide) rfl
  simp only [decide_eq_true_eq, decide_eq_false_iff_not, not_not, ne_eq, eq_zero_iff_toInt] at hz hnz hz' hnz'
  exact ⟨rfl, rfl, ⟨t, ht, hz, hnz⟩, ⟨u, hu, hnz', hz'⟩⟩

/-- Settles O37: the ten rows of the truth table. -/
theorem condBranchesFollowTheTruthTable : Obligations.CondBranchesFollowTheTruthTable :=
  ⟨branchesWhen_bCond .eq, branchesWhen_bCond .ne, branchesWhen_bCond .lt, branchesWhen_bCond .le,
    branchesWhen_bCond .gt, branchesWhen_bCond .ge, branchesWhen_bCond .lo, branchesWhen_bCond .ls,
    branchesWhen_bCond .hi, branchesWhen_bCond .hs⟩

/-- Settles O39: with V false `n` alone decides the signed order, with C false the unsigned one is settled. -/
theorem reachableConditionsReduce : Obligations.ReachableConditionsReduce := by
  rintro ⟨n, z, _, _⟩ rfl rfl
  simp [condHolds]

end Sys2Proof.Machine

/-! PROOFS. The step request: which of its five outcomes it takes, that it always answers, and what a step of an assembled
program can do. -/

namespace Sys2Proof.Machine

/-! ### The outcomes of a step, each from its condition (44_step_cycle R281) -/

section Outcomes

variable {s : State} {w : InstrWord}

theorem step_of_fault (hf : s.fault ≠ none) : step s = .next (s.answer .stopped) :=
  if_pos (Option.isSome_iff_ne_none.mpr hf)

theorem step_of_halted (hf : s.fault = none) (hh : s.halted = true) : step s = .next (s.answer .refusedCpuHalted) := by
  simp [step, hf, hh]

theorem step_of_completed (hf : s.fault = none) (hh : s.halted = false) (hfetch : s.fetch = .completed) :
    step s = .next (s.answer .completed) := by
  simp [step, hf, hh, hfetch]

theorem step_of_noInstruction (hf : s.fault = none) (hh : s.halted = false) (hfetch : s.fetch = .noInstruction) :
    step s = .next s.fetchFault := by
  simp [step, hf, hh, hfetch]

theorem step_of_word (hf : s.fault = none) (hh : s.halted = false) (hfetch : s.fetch = .word w) :
    step s = execDecoded (decode w) s := by
  simp [step, hf, hh, hfetch]

/-- A completed run is answered Completed (44_step_cycle R282). -/
theorem step_of_runCompleted (h : s.runCompleted) : step s = .next (s.answer .completed) :=
  let ⟨hf, hh, hpc⟩ := h
  step_of_completed hf hh (fetch_completed hpc)

/-- The execution of whatever the decoder gave answers a next state (44_step_cycle R285, 60_exceptions R312). -/
theorem exists_execDecoded (d : Decoded) (s : State) : ∃ t, execDecoded d s = .next t := by
  cases d with
  | instr i => exact ⟨_, exec_eq_perform i s⟩
  | reservedCondition cond tidx => exact ⟨_, rfl⟩
  | illegal w => exact ⟨_, rfl⟩

/-- Every step request answers a next state (44_step_cycle R281). -/
theorem exists_step (s : State) : ∃ t, step s = .next t := by
  by_cases hf : s.fault = none
  · cases hh : s.halted with
    | true => exact ⟨_, step_of_halted hf hh⟩
    | false =>
      cases hfetch : s.fetch with
      | completed => exact ⟨_, step_of_completed hf hh hfetch⟩
      | noInstruction => exact ⟨_, step_of_noInstruction hf hh hfetch⟩
      | word w => rw [step_of_word hf hh hfetch]; exact exists_execDecoded _ s
  · exact ⟨_, step_of_fault hf⟩

/-- A state that steps to itself stays through every run. -/
theorem run_of_step_self (h : step s = .next s) (n : Nat) : Host.Core.run Sys2Proof.core n s = .next s := by
  induction n with
  | zero => rfl
  | succ n ih => rw [run_succ h, ih]

end Outcomes

/-! ### Instructions whose targets lie within the program -/

/-- The branch of the operation, if it is one, has a resolved target of index at most `n`. -/
def Operation.Within (n : Nat) : Operation → Prop
  | .branch (w := w) _ target => w ≤ 24 ∧ target.isResolved = true ∧ targetIndex target ≤ n
  | .link target => target.isResolved = true ∧ targetIndex target ≤ n
  | _ => True

/-- A well-formed instruction with its target in the program performs an operation with its target in the program. -/
theorem within_operation {n : Nat} {i : Instr} (hwf : i.wellFormed = true) (ht : targetAtMost n i) (s : State) :
    (operation s i).Within n := by
  cases i with
  | b t => exact ⟨le_rfl, hwf, ht⟩
  | bl t => exact ⟨hwf, ht⟩
  | cbz _ t | cbnz _ t | bEq t | bNe t | bLt t | bLe t | bGt t | bGe t | bLo t | bLs t | bHi t | bHs t =>
    exact ⟨by decide, hwf, ht⟩
  | _ => trivial

/-- An instruction that jumps to a register's value is BR (10_state R39). -/
theorem eq_br_of_operation_eq_jump {i : Instr} {s : State} {v : Word} (h : operation s i = .jump v) :
    ∃ rn, i = .br rn := by
  by_contra hbr
  exact operation_ne_jump (not_exists.mp hbr) s v h

/-- The only faults of an access are those of alignment and of range (20_memory R80). -/
theorem accessFault_code {cap n : Nat} {ea : Int} {c : FaultCode} (h : accessFault cap ea n = some c) :
    c = .misalignedAccess ∨ c = .outOfBounds :=
  (accessFault_eq_some h).imp And.left And.left

/-- What an operation with its target in the program can do: take the fault of a data access; or fault not, and advance by
4, jump to an index in the program, or jump to a register's value (44_step_cycle R283, R285). -/
theorem perform_of_within {n : Nat} {op : Operation} (i : Instr) (s : State) (hop : op.Within n) :
    (∃ c a, (c = .misalignedAccess ∨ c = .outOfBounds) ∧ op.perform i s = s.takeFault c a (.instr i)) ∨
    (op.perform i s).fault = s.fault ∧
      ((op.perform i s).pc = nextPc s.pc ∨ (∃ k : Nat, k ≤ n ∧ (op.perform i s).pc.toInt = 4 * k) ∨
        ∃ p, op = .jump p) := by
  cases op with
  | result rd v => right; simp [Operation.perform, State.writeResult]
  | resultFlags rd v => right; simp [Operation.perform, State.writeResultFlags]
  | load rt ea m convert =>
    cases h : accessFault s.memCap ea m with
    | none => right; simp [Operation.perform, load_of_ok h]
    | some c => exact .inl ⟨c, ea, accessFault_code h, load_of_fault h⟩
  | store ea m u =>
    cases h : accessFault s.memCap ea m with
    | none => right; simp [Operation.perform, store_of_ok h]
    | some c => exact .inl ⟨c, ea, accessFault_code h, store_of_fault h⟩
  | branch taken target =>
    obtain ⟨hw, hres, hle⟩ := hop
    cases taken with
    | false => exact .inr ⟨rfl, .inl rfl⟩
    | true =>
      cases target with
      | resolved tidx => exact .inr ⟨rfl, .inr (.inl ⟨_, hle, toInt_targetAddress hw tidx⟩)⟩
      | unresolved l => cases hres
  | link target =>
    obtain ⟨hres, hle⟩ := hop
    cases target with
    | resolved tidx =>
      exact .inr ⟨by simp [Operation.perform], .inr (.inl ⟨_, hle, toInt_targetAddress le_rfl tidx⟩)⟩
    | unresolved l => cases hres
  | jump p => exact .inr ⟨rfl, .inr (.inr ⟨p, rfl⟩)⟩

/-! ### The words of an accepted program -/

section Accepted

variable {source : List Char} {p : List (Nat × Instr)}

/-- Every word of an accepted program is that of a resolved instruction with its target in the program
(30_encoding R139, R152). -/
theorem decode_of_mem_wordsOfProgram (h : parse source = .ok p) {w : InstrWord} (hw : w ∈ wordsOfProgram p) :
    ∃ i, decode w = .instr i ∧ i.wellFormed = true ∧ targetAtMost p.length i := by
  obtain ⟨q, hq, henc⟩ := List.mem_filterMap.mp hw
  exact ⟨q.2, (encode_spec henc).2, (resolved_of_parse_ok h).2 q hq⟩

/-- An accepted program has one word for each instruction (30_encoding R139). -/
theorem length_wordsOfProgram (h : parse source = .ok p) : (wordsOfProgram p).length = p.length := by
  have hdecode := map_decode_wordsOfProgram fun q hq => ((resolved_of_parse_ok h).2 q hq).1
  simpa using congrArg List.length hdecode

end Accepted

/-- The advance by 4 from an instruction of a program of legal length does not wrap (10_state R40, 00_scope R11). -/
theorem toInt_nextPc {pc : Word} {k : Nat} (hpc : pc.toInt = 4 * k) (hk : k < Config.maxProg) :
    (nextPc pc).toInt = 4 * (k + 1) := by
  unfold Config.maxProg at hk
  unfold nextPc
  rw [toInt_wrap64]
  omega

/-! ### The obligations -/

/-- Settles O54: an instruction of an accepted program has its target in the program, so its fault is that of a data
access, and its pc leaves the program only where it is a register's value. -/
theorem assembledProgramsFaultOnlyOnDataAndStrayOnlyThroughBr :
    Obligations.AssembledProgramsFaultOnlyOnDataAndStrayOnlyThroughBr := by
  intro source p s t hparse hprog hf hpc h
  obtain ⟨hf', -⟩ | ⟨-, -, rfl⟩ | ⟨-, -, -, rfl⟩ | ⟨-, -, hbad, -⟩ | ⟨-, -, k, w, hk, hlt, hw, hx⟩ := step_cases h
  · exact absurd hf hf'
  · exact ⟨fun f hl => (nomatch hf.symm.trans hl), .inl hpc⟩
  · exact ⟨fun f hl => (nomatch hf.symm.trans hl), .inl hpc⟩
  · omega
  · have hlen : s.prog.length = p.length := by rw [hprog, length_wordsOfProgram hparse]
    have hmax : p.length ≤ Config.maxProg := (resolved_of_parse_ok hparse).1
    have htprog : t.prog = s.prog := (noStepChangesTheProgramOrTheHaltedFlag s t h).1
    obtain ⟨i, hi, hwf, htarget⟩ := decode_of_mem_wordsOfProgram hparse (hprog ▸ List.mem_of_getElem? hw)
    rw [hi] at hx
    cases (exec_eq_perform i s).symm.trans hx
    obtain ⟨c, a, hc, ht⟩ | ⟨hfault, hnext⟩ := perform_of_within i s (within_operation hwf htarget s)
    · rw [ht]
      exact ⟨fun f hl => by cases hl; exact hc, .inl hpc⟩
    · refine ⟨fun f hl => (nomatch (hfault.trans hf).symm.trans hl), ?_⟩
      unfold State.pcOnBoundary
      rw [htprog]
      obtain hpc' | ⟨j, hj, hpc'⟩ | ⟨v, hjump⟩ := hnext
      · rw [hpc', toInt_nextPc hk (by omega)]
        exact .inl (by omega)
      · exact .inl (by omega)
      · obtain ⟨rn, rfl⟩ := eq_br_of_operation_eq_jump hjump
        exact .inr ⟨rn, rfl⟩

/-- Settles O6, by the condition of each outcome. -/
theorem stepAnswersInTheSpecsOrder : Obligations.StepAnswersInTheSpecsOrder := by
  intro s
  refine ⟨fun hf => ⟨_, step_of_fault hf, rfl⟩, fun hf hh => ⟨_, step_of_halted hf hh, rfl⟩,
    fun hf hh hpc => ⟨_, step_of_runCompleted ⟨hf, hh, hpc⟩, rfl⟩, fun hf hh hpc => ?_, fun hf hh hlow hhigh hgrid => ?_⟩
  · exact ⟨_, step_of_noInstruction hf hh (fetch_noInstruction hpc (by omega)), rfl⟩
  · have hlt : (s.pc.toInt / 4).toNat < s.prog.length := by omega
    have hword := List.getElem?_eq_getElem hlt
    exact ⟨_, hword, step_of_word hf hh (fetch_word (by omega) hword)⟩

/-- Settles O7: each outcome of a step is a next state, and each instruction performs its operation. -/
theorem everyStepAndInstructionAnswersANextState : Obligations.EveryStepAndInstructionAnswersANextState :=
  ⟨exists_step, fun i s => ⟨_, exec_eq_perform i s⟩⟩

/-- Settles O10: the answer leaves the run completed, so after it every step gives the same state. -/
theorem completedRunStaysCompleted : Obligations.CompletedRunStaysCompleted := by
  intro s n h
  have hself : step (s.answer .completed) = .next (s.answer .completed) := step_of_runCompleted h
  exact ⟨_, (run_succ (step_of_runCompleted h) n).trans (run_of_step_self hself n), rfl⟩

/-- Settles O5: the fetch finds the word at index `k`. -/
theorem stepRunsTheDecodedInstruction : Obligations.StepRunsTheDecodedInstruction := by
  intro s k w i hf hh hpc hk hi
  rw [step_of_word hf hh (fetch_word hpc hk), hi, execDecoded]

end Sys2Proof.Machine

/-! PROOFS. Exceptions: which address a fault carries, the runs after a fault and of a halted core, and the branches whose
target was never resolved. -/

namespace Sys2Proof.Machine

/-! ### The address a fault carries (60_exceptions R312) -/

section Addresses

variable {s t : State} {i : Instr} {c : FaultCode} {a : Int} {d : Decoded}

/-- An operation that faults for another reason than a data access gives the address 0 (60_exceptions R312). -/
theorem addr_eq_zero_of_perform {op : Operation} (h : op.perform i s = s.takeFault c a d) (hb : c ≠ .outOfBounds)
    (hm : c ≠ .misalignedAccess) : a = 0 := by
  have hout : (op.perform i s).outcome = some (.fault c) := congrArg State.outcome h
  have hlatch : (op.perform i s).fault = some ⟨c, s.pc, a⟩ := congrArg State.fault h
  cases op with
  | result rd v => simp [Operation.perform, State.writeResult] at hout
  | resultFlags rd v => simp [Operation.perform, State.writeResultFlags] at hout
  | load rt ea n convert =>
    cases hf : accessFault s.memCap ea n with
    | none => simp [Operation.perform, load_of_ok hf] at hout
    | some c' =>
      obtain rfl : c' = c := by simpa [Operation.perform, load_of_fault hf] using hout
      exact (accessFault_code hf).elim (absurd · hm) (absurd · hb)
  | store ea n u =>
    cases hf : accessFault s.memCap ea n with
    | none => simp [Operation.perform, store_of_ok hf] at hout
    | some c' =>
      obtain rfl : c' = c := by simpa [Operation.perform, store_of_fault hf] using hout
      exact (accessFault_code hf).elim (absurd · hm) (absurd · hb)
  | branch taken target =>
    rw [Operation.perform] at hout hlatch
    obtain ht | ⟨tidx, ht⟩ | ht := branchIf_cases (s := s) (i := i) (t := target) (taken := taken)
    · rw [ht] at hlatch; cases hlatch; rfl
    · rw [ht] at hout; cases hout
    · rw [ht] at hout; cases hout
  | link target =>
    cases target with
    | resolved tidx => simp [Operation.perform] at hout
    | unresolved l => cases hlatch; rfl
  | jump pc => cases hout

/-- The execution of a decoded word that faults for another reason than a data access gives the address 0
(60_exceptions R305, R306, R312). -/
theorem addr_eq_zero_of_execDecoded (h : execDecoded d s = .next (s.takeFault c a d)) (hb : c ≠ .outOfBounds)
    (hm : c ≠ .misalignedAccess) : a = 0 := by
  cases d with
  | instr i =>
    have hperform := (exec_eq_perform i s).symm.trans h
    injection hperform with hperform
    exact addr_eq_zero_of_perform hperform hb hm
  | reservedCondition cond tidx =>
    injection h with h
    cases congrArg State.fault h; rfl
  | illegal w =>
    injection h with h
    cases congrArg State.fault h; rfl

/-- Inversion of a step that answers a fault: the pc holds no instruction, or the instruction at it took the fault
(44_step_cycle R283, R286). -/
theorem step_fault_cases (h : step s = .next t) (hout : t.outcome = some (.fault c)) :
    (c = .fetchFault ∧ t = s.fetchFault) ∨
      ∃ a d, c ≠ .fetchFault ∧ (c ≠ .outOfBounds → c ≠ .misalignedAccess → a = 0) ∧ t = s.takeFault c a d := by
  obtain ⟨-, rfl⟩ | ⟨-, -, rfl⟩ | ⟨-, -, -, rfl⟩ | ⟨-, -, -, rfl⟩ | ⟨-, -, k, w, -, -, -, hx⟩ := step_cases h
  · cases hout
  · cases hout
  · cases hout
  · cases hout; exact .inl ⟨rfl, rfl⟩
  · obtain ⟨c', a, hfetch, rfl⟩ | ⟨i, -, -, -, -, -, hok, -⟩ := execDecoded_cases hx
    · cases hout; exact .inr ⟨a, _, hfetch, addr_eq_zero_of_execDecoded hx, rfl⟩
    · cases hok.symm.trans hout

end Addresses

/-! ### Runs of a core that executes nothing more (60_exceptions R310, R313) -/

section Runs

variable {s : State} {o : StepOutcome}

/-- A step request that is only answered, and answered the same once more, is answered the same through every run. -/
theorem run_of_answer (h : step s = .next (s.answer o)) (hself : step (s.answer o) = .next (s.answer o)) (n : Nat) :
    ∃ u, Host.Core.run Sys2Proof.core (n + 1) s = .next u ∧ OnlyAnswers o s u :=
  ⟨s.answer o, (run_succ h n).trans (run_of_step_self hself n), rfl⟩

/-- With a fault latched every step request is answered Stopped (60_exceptions R313). -/
theorem run_of_fault (hf : s.fault ≠ none) (n : Nat) :
    ∃ u, Host.Core.run Sys2Proof.core (n + 1) s = .next u ∧ OnlyAnswers .stopped s u :=
  run_of_answer (step_of_fault hf) (step_of_fault (s := s.answer .stopped) hf) n

/-- A halted core with no fault latched answers every step request Refused(CpuHalted) (60_exceptions R310). -/
theorem run_of_halted (hf : s.fault = none) (hh : s.halted = true) (n : Nat) :
    ∃ u, Host.Core.run Sys2Proof.core (n + 1) s = .next u ∧ OnlyAnswers .refusedCpuHalted s u :=
  run_of_answer (step_of_halted hf hh) (step_of_halted (s := s.answer .refusedCpuHalted) hf hh) n

end Runs

/-! ### Branches whose target was never resolved (60_exceptions R307) -/

/-- An instruction whose operation is a branch to a symbol answers a next state: the fault where the branch is taken, behind
the instruction where it is not (43_branch R240, R241). -/
theorem exec_branch_unresolved {s : State} {i : Instr} {w : Nat} {l : Label} {taken : Bool}
    (hop : operation s i = .branch taken (.unresolved l : Target w)) :
    ∃ t, exec i s = .next t ∧ (taken = true → Faults .unresolvedBranchTarget 0 (.instr i) s t) ∧
      (taken = false → FallsThrough i s t) := by
  refine ⟨s.branchIf i taken (.unresolved l : Target w), by rw [exec_eq_perform, hop, Operation.perform], ?_, ?_⟩
  · rintro rfl
    exact faults_takeFault s _ 0 _
  · rintro rfl
    exact fallsThrough_retire s i

/-! ### The obligations -/

/-- Settles O8: a step that answers a fault is a FetchFault or the fault of an instruction; both leave a latch, and a latch
stops every later step. -/
theorem faultsArePreciseAndFinal : Obligations.FaultsArePreciseAndFinal := by
  intro s t c h hout
  obtain ⟨rfl, rfl⟩ | ⟨a, d, hfetch, haddr, rfl⟩ := step_fault_cases h hout
  · exact ⟨⟨fun _ => rfl, rfl, fun _ => rfl, rfl, rfl, rfl, rfl, rfl, rfl⟩, ⟨0, rfl, fun _ _ => rfl⟩, .inl rfl, .inl rfl,
      fun _ => ⟨rfl, rfl, rfl⟩, run_of_fault nofun⟩
  · obtain ⟨huntouched, hlatch, -, hinstr, hcycle, -⟩ := faults_takeFault s c a d
    exact ⟨huntouched, ⟨a, hlatch, haddr⟩, hinstr, hcycle, fun hc => absurd hc hfetch, run_of_fault nofun⟩

/-- Settles O9: the answer leaves the core halted with no fault latched, and reset clears the flag. -/
theorem haltedCoreRefusesEveryStep : Obligations.HaltedCoreRefusesEveryStep :=
  ⟨fun _ n hf hh => run_of_halted hf hh n, State.hostReset_halted⟩

/-- Settles O38: B is always taken, CBZ and CBNZ branch on opposite tests, B.cond on its condition; BL tests its target before
it links. -/
theorem unresolvedTargetsFaultWhenTaken : Obligations.UnresolvedTargetsFaultWhenTaken := by
  intro l rt c s
  obtain ⟨t, hb, hbFaults, -⟩ := exec_branch_unresolved (s := s) (i := .b (.unresolved l)) rfl
  obtain ⟨u, hcbz, hz, hnz⟩ := exec_branch_unresolved (s := s) (i := .cbz rt (.unresolved l)) rfl
  obtain ⟨v, hcbnz, hnz', hz'⟩ := exec_branch_unresolved (s := s) (i := .cbnz rt (.unresolved l)) rfl
  simp only [decide_eq_true_eq, decide_eq_false_iff_not, not_not, ne_eq] at hz hnz hz' hnz'
  exact ⟨⟨t, hb, hbFaults rfl⟩, ⟨_, exec_eq_perform _ s, faults_takeFault s _ 0 _⟩, ⟨u, hcbz, hz, hnz⟩,
    ⟨v, hcbnz, hnz', hz'⟩, exec_branch_unresolved (operation_bCond s (.unresolved l) c), rfl, rfl, rfl, rfl,
    encode_bCond _ c⟩

end Sys2Proof.Machine

/-! PROOFS. The host's requests and the run-all loop. -/

namespace Sys2Proof.Machine

/-! ### Loading a program (80_host_interface R367) -/

section Loading

variable {s : State} {p : List InstrWord}

theorem loadProgram_of_fits (ho : s.outcome = none) (hp : p.length ≤ Config.maxProg) :
    s.loadProgram p = some { s with prog := p } :=
  if_pos ⟨ho, hp⟩

theorem loadProgram_of_refused (h : s.outcome ≠ none ∨ Config.maxProg < p.length) : s.loadProgram p = none :=
  if_neg fun ⟨ho, hp⟩ => h.elim (absurd ho) hp.not_gt

theorem serve_loadProgram_of_fits (ho : s.outcome = none) (hp : p.length ≤ Config.maxProg) :
    serve (.loadProgram p) s = ({ s with prog := p }, some .done) := by
  rw [serve, loadProgram_of_fits ho hp]

theorem serve_loadProgram_of_refused (h : s.outcome ≠ none ∨ Config.maxProg < p.length) :
    serve (.loadProgram p) s = (s, some .loadRefused) := by
  rw [serve, loadProgram_of_refused h]

end Loading

/-! ### The registers of a snapshot (80_host_interface R362) -/

@[simp] theorem length_getState_regs (s : State) : s.getState.regs.length = 32 := by
  simp [State.getState]

/-- A snapshot shows each register as an instruction reads it, register 31 as 0 (10_state R34). -/
theorem getElem?_getState_regs (s : State) (r : RegIdx) : s.getState.regs[r.toNat]? = some (s.x r) := by
  have hr : r.toNat < 32 := r.isLt
  simp [State.getState, hr]

/-! ### One round of the run-all loop (80_host_interface R368) -/

section RunAll

variable {s t : State}

theorem runAll_of_step_ok (h : step s = .next t) (hok : t.outcome = some .ok) (n : Nat) :
    runAll (n + 1) s = runAll n t := by
  rw [runAll, h]; exact if_pos hok

theorem runAll_of_step_other (h : step s = .next t) (hok : t.outcome ≠ some .ok) (n : Nat) : runAll (n + 1) s = t := by
  rw [runAll, h]; exact if_neg hok

end RunAll

/-! ### The obligations -/

/-- Settles O56, by induction on the bound: a first step answered Ok is one more than the run from the state after it, and
any other first step is the whole run. -/
theorem runAllStopsAtTheFirstOtherOutcomeOrTheBound : Obligations.RunAllStopsAtTheFirstOtherOutcomeOrTheBound := by
  intro n
  induction n with
  | zero => exact fun s => ⟨0, le_rfl, rfl, fun j _ hj => absurd hj j.not_lt_zero, fun h => absurd h (lt_irrefl 0)⟩
  | succ n ih =>
    intro s
    obtain ⟨t, h⟩ := exists_step s
    by_cases hok : t.outcome = some .ok
    · obtain ⟨k, hk, hrun, hmid, hstop⟩ := ih t
      rw [runAll_of_step_ok h hok]
      refine ⟨k + 1, Nat.succ_le_succ hk, (run_succ h k).trans hrun, fun j _ hj => ?_, fun hkn => ?_⟩
      · match j with
        | 1 => exact ⟨t, run_succ h 0, hok⟩
        | j + 2 =>
          obtain ⟨u, hu, huok⟩ := hmid (j + 1) j.succ_pos (Nat.lt_of_succ_lt_succ hj)
          exact ⟨u, (run_succ h (j + 1)).trans hu, huok⟩
      · exact ⟨k.succ_pos, (hstop (Nat.lt_of_succ_lt_succ hkn)).2⟩
    · rw [runAll_of_step_other h hok]
      exact ⟨1, Nat.succ_le_succ n.zero_le, run_succ h 0, fun j hpos hj => by omega, fun _ => ⟨Nat.one_pos, hok⟩⟩

/-- Settles O55: a snapshot is read field by field, and a load is accepted or refused by the rule of its condition. -/
theorem hostRequestsDoWhatTheSpecSays : Obligations.HostRequestsDoWhatTheSpecSays := by
  intro s p
  have hsnapshot : (serve .getState s).2 = some (.snapshot s.getState) := rfl
  refine ⟨rfl, ⟨_, hsnapshot, rfl, length_getState_regs s, getElem?_getState_regs s, rfl, rfl, rfl, rfl, rfl, rfl⟩, rfl,
    fun ho hp => ?_, fun h => ?_⟩
  · rw [serve_loadProgram_of_fits ho hp]
  · rw [serve_loadProgram_of_refused h]; exact ⟨rfl, rfl⟩

end Sys2Proof.Machine
